-- ==== Sys2Proof/Word.lean ====
section
/-! DEFINITION. The word types of the spec: 00_scope.md R6 and R7 (every value is an unsigned integer of a stated width). -/

namespace Sys2Proof

/-- A 32-bit word: registers, command words, host data (R6). Addition on it is modulo 2^32 (R8). -/
abbrev Word := BitVec 32

/-- A byte of BUF (R6, 20_memory.md R52). -/
abbrev Byte := BitVec 8

/-- A byte offset of the host address space, 0x0000 .. 0xFFFF (20_memory.md R50). -/
abbrev Addr := BitVec 16

end Sys2Proof
end

