-- ==== Sys2Proof/Config.lean ====
section
/-! DEFINITION. What the spec leaves to an implementation, and the values it leaves unspecified.
None of these constants has a body: nothing can evaluate one or prove a value of it. -/

namespace Sys2Proof

/-- The instance parameter BUF_BYTES (00_scope.md R5), as BUF_BYTES / 64 - 1: its 512 values are exactly the
multiples of 64 from 64 to 32768. `State.reset` starts from it. DESIGN CHOICE, log entry 3. -/
opaque Config.capacity : Fin 512

/-- The value of byte `i` of BUF that the `n`-th reset leaves (70_reset_and_hazards.md R191: "one draw per byte, fixed
at the reset step", 93 U3). Free value: DESIGN CHOICE, log entry 4. -/
opaque Config.bufDraw : (n i : Nat) → Byte

/-- The answer of the `n`-th host read of volatile state while STATUS.BUSY = 1 (20_memory.md R58: "Each such read is a
fresh draw", 93 U2). Free value: DESIGN CHOICE, log entry 5. -/
opaque Config.busyRead : (n : Nat) → Word

end Sys2Proof
end

