-- ==== Sys2Proof/Machine/Constants.lean ====
section
/-! DEFINITION. The fixed words of the algorithm and of the register map. -/

namespace Sys2Proof.Machine

/-- IV0 .. IV4, in list order (10_state.md R23). -/
def Const.IV0 : Word := 0x67452301
def Const.IV1 : Word := 0xEFCDAB89
def Const.IV2 : Word := 0x98BADCFE
def Const.IV3 : Word := 0x10325476
def Const.IV4 : Word := 0xC3D2E1F0

/-- K0 .. K3, in list order (42_compression.md R120). -/
def Const.K0 : Word := 0x5A827999
def Const.K1 : Word := 0x6ED9EBA1
def Const.K2 : Word := 0x8F1BBCDC
def Const.K3 : Word := 0xCA62C1D6

/-- ID, the ASCII bytes "SHA1" (10_state.md R36). -/
def Const.ID : Word := 0x53484131

/-- The value of T that means "no block is in flight" (10_state.md R27). -/
def Const.noBlock : BitVec 7 := 81

end Sys2Proof.Machine
end

