-- ==== Sys2Proof/Machine/State.lean ====
section
/-! DEFINITION. The state of SHA1CORE: everything 10_state.md R21 lists, the instance parameter, and the model's own
record of the host (which agent moves next, what its reads returned). -/

namespace Sys2Proof.Machine

/-- No step of SHA1CORE stops the machine: every command and every host access has a defined next state
(93_implementation_defined.md section 1), so there is no fault. DEDUCED, log entry 16. -/
inductive Fault where
  deriving DecidableEq, Repr

/-- Why `exec` gives an instruction no meaning. -/
inductive Refusal where
  /-- Raised by `exec` alone, for an instruction with no meaning yet: safe. No arm raises it now. -/
  | notModelled (mnemonic : String)
  deriving DecidableEq, Repr

/-- The hash state H0..H4 (10_state.md R22). -/
structure HashState where
  h0 : Word
  h1 : Word
  h2 : Word
  h3 : Word
  h4 : Word
  deriving DecidableEq, Repr

/-- The working variables A..E (10_state.md R24). -/
structure WorkVars where
  a : Word
  b : Word
  c : Word
  d : Word
  e : Word
  deriving DecidableEq, Repr

/-- The fields of STATUS (10_state.md R31). Bits 31:12 are reserved, read as 0 and are never set, so they need no
storage (DESIGN CHOICE, log entry 10). -/
structure Status where
  busy : Bool
  done : Bool
  err : Bool
  herr : Bool
  errCode : BitVec 4
  herrCause : BitVec 4
  deriving DecidableEq, Repr

/-- The bytes of BUF that have been written since the last reset, by byte index, strictly rising. -/
abbrev Memory := List Host.Cell

/-- One move of a run: an access or a reset by the host, or a core step (00_scope.md R12). -/
inductive Turn where
  /-- A host read at an offset (20_memory.md R54, R55, R58). -/
  | read (a : Addr)
  /-- A host write at an offset (20_memory.md R53, R57). -/
  | write (a : Addr) (value : Word)
  /-- The host asserts reset (70_reset_and_hazards.md R190). -/
  | reset
  /-- The core has the turn (10_state.md R34). -/
  | core
  deriving DecidableEq, Repr

/-- The state. The fields down to `buf` are the architectural state of 10_state.md R21. -/
@[ext]
structure State where
  /-- H0..H4 (R22). -/
  h : HashState
  /-- A..E (R24). -/
  v : WorkVars
  /-- W[0..79] (R25). -/
  w : Vector Word 80
  /-- T (R26). 82..127 are never reached (R27; DESIGN CHOICE, log entry 11). -/
  t : BitVec 7
  /-- MSGLEN (R28). -/
  msglen : BitVec 64
  /-- PADLEN (R29). -/
  padlen : BitVec 64
  /-- CMPCNT (R30). -/
  cmpcnt : Word
  /-- STATUS (R31). -/
  status : Status
  /-- PENDING (R35). It keeps its word after completion (DEDUCED, log entry 8). -/
  pending : Word
  /-- BUF (20_memory.md R52): the bytes written since the last reset. -/
  buf : Memory
  /-- The instance parameter BUF_BYTES / 64 - 1 (00_scope.md R5); no step changes it. -/
  capacity : Fin 512
  /-- The model's own: how many resets there have been, which numbers the draws of BUF (DESIGN CHOICE, log entry 4). -/
  resets : Nat
  /-- The model's own: how many fresh draws host reads have used (DESIGN CHOICE, log entry 5). -/
  draws : Nat
  /-- The model's own: the turns still to be taken, first one first (DESIGN CHOICE, log entry 1). -/
  script : List Turn
  /-- The model's own: what host reads returned, with their offsets, newest first (DESIGN CHOICE, log entry 6). -/
  reads : List (Addr × Word)
  deriving DecidableEq, Repr

/-- BUF_BYTES (00_scope.md R5). -/
def State.bufBytes (s : State) : Nat := 64 * (s.capacity.val + 1)

/-- The state right after reset (70_reset_and_hazards.md R190), of an instance with the free parameter
`Config.capacity` and no turn scheduled. No byte of BUF is listed: each reads as its draw (R191). -/
def State.reset : State where
  h := ⟨Const.IV0, Const.IV1, Const.IV2, Const.IV3, Const.IV4⟩
  v := ⟨0, 0, 0, 0, 0⟩
  w := Vector.replicate 80 0
  t := Const.noBlock
  msglen := 0
  padlen := 0
  cmpcnt := 0
  status := ⟨false, false, false, false, 0, 0⟩
  pending := 0
  buf := []
  capacity := Config.capacity
  resets := 0
  draws := 0
  script := []
  reads := []

end Sys2Proof.Machine
end

