-- ==== Sys2Proof/Machine/Flags.lean ====
section
/-! DEFINITION. Every computation on STATUS (10_state.md R31 to R34, 60_exceptions.md R165, R173, R174). SHA1CORE has no
other flags (R31). -/

namespace Sys2Proof.Machine

/-- The command errors (60_exceptions.md R165). -/
inductive CmdError where
  /-- Decode found no command (R166). -/
  | illegalCmd
  /-- EXPAND or COMPRESS of a block outside BUF (R167). -/
  | blockRange
  /-- PAD or DIGEST with MSGLEN >= 2^61 (R168). -/
  | inputTooLarge
  /-- PAD or DIGEST whose padded message does not fit BUF (R169). -/
  | allocFailure
  /-- ROUND with T > 79, or ACCUM with T != 80 (R170). -/
  | sequence
  deriving DecidableEq, Repr

/-- The ERRCODE of a command error (R165). -/
def CmdError.code : CmdError → BitVec 4
  | .illegalCmd => 1
  | .blockRange => 2
  | .inputTooLarge => 3
  | .allocFailure => 4
  | .sequence => 5

/-- The host-access errors (60_exceptions.md R173). -/
inductive HostError where
  /-- `a[1:0] != 0` (20_memory.md R50). -/
  | misaligned
  /-- An aligned offset that R51 leaves unmapped. -/
  | unmapped
  /-- A write while BUSY = 1 to a mapped offset other than STATUS. -/
  | writeWhileBusy
  /-- A write while BUSY = 0 to a read-only register. -/
  | writeRo
  deriving DecidableEq, Repr

/-- The HERRCAUSE of a host-access error (R173). -/
def HostError.cause : HostError → BitVec 4
  | .misaligned => 1
  | .unmapped => 2
  | .writeWhileBusy => 3
  | .writeRo => 4

/-- STATUS as the host reads it (10_state.md R31): bits 31:12 are 0. -/
def Status.toWord (st : Status) : Word :=
  0#20 ++ st.herrCause ++ st.errCode ++ BitVec.ofBool st.herr ++ BitVec.ofBool st.err ++ BitVec.ofBool st.done
    ++ BitVec.ofBool st.busy

/-- STATUS after a command is accepted (R33). -/
def Status.accepted (st : Status) : Status :=
  { st with busy := true, done := false, err := false, errCode := 0 }

/-- STATUS after a command completes with `code` (R34): ERR is `code != 0`. -/
def Status.completed (code : BitVec 4) (st : Status) : Status :=
  { st with busy := false, done := true, err := code != 0, errCode := code }

/-- STATUS after a host-access error (R174): the first cause is kept while HERR is set. -/
def Status.recordHostError (cause : BitVec 4) (st : Status) : Status :=
  if st.herr then st else { st with herr := true, herrCause := cause }

/-- STATUS after the host writes `value` to it (R32): a 1 in bit 1, 2 or 3 clears DONE, ERR with ERRCODE, or HERR with
HERRCAUSE, and every other bit is ignored. -/
def Status.clearedBy (value : Word) (st : Status) : Status where
  busy := st.busy
  done := st.done && !value.getLsbD 1
  err := st.err && !value.getLsbD 2
  herr := st.herr && !value.getLsbD 3
  errCode := if value.getLsbD 2 then 0 else st.errCode
  herrCause := if value.getLsbD 3 then 0 else st.herrCause

end Sys2Proof.Machine
end

