-- ==== Sys2Proof/Machine/Ops.lean ====
section
/-! DEFINITION. The shared operations: the bytes of BUF (00_scope.md R10, R11; 20_memory.md R52, R56), and the errors of
60_exceptions.md: how a command ends, how an error is taken, how the host clears it. -/

namespace Sys2Proof.Machine

/-- The byte stored at `a`, if that byte has been written since the last reset. -/
def Memory.get? : Memory → Nat → Option Byte
  | [], _ => none
  | (b, x) :: m, a => if a = b then some x else Memory.get? m a

/-- Stores one byte, keeping the addresses strictly rising. -/
def Memory.put : Memory → Nat → Byte → Memory
  | [], a, x => [(a, x)]
  | (b, y) :: m, a, x =>
    if a < b then (a, x) :: (b, y) :: m
    else if a = b then (a, x) :: m
    else (b, y) :: Memory.put m a x

/-- The addresses strictly rise. -/
def Memory.rising : Memory → Bool
  | [] => true
  | [_] => true
  | (a, _) :: (b, y) :: m => decide (a < b) && Memory.rising ((b, y) :: m)

/-- The canonical form of a memory of `limit` bytes: strictly rising addresses, all below `limit`. An unlisted byte has
no stored value, so no entry can repeat it (DESIGN CHOICE, log entry 4). -/
def Memory.wf (limit : Nat) (m : Memory) : Bool :=
  Memory.rising m && m.all (fun c => decide (c.1 < limit))

/-- `MemWrite(addr, n, v)` (R10): the `n` low bytes of `v` into addresses `addr .. addr + n - 1`, the most significant
byte first. -/
def Memory.write (addr : Nat) : (n v : Nat) → Memory → Memory
  | 0, _, m => m
  | n + 1, v, m => Memory.put (Memory.write addr n (v / 256) m) (addr + n) (BitVec.ofNat 8 v)

/-- Zeroes into `addr .. addr + n - 1` (40_padder.md R98, step 3). -/
def Memory.zeroFill (addr : Nat) : (n : Nat) → Memory → Memory
  | 0, m => m
  | n + 1, m => Memory.put (Memory.zeroFill addr n m) (addr + n) 0

/-- `BUF[i]` (R10): the byte last written, and the reset's draw where none was (70_reset_and_hazards.md R191). -/
def readByte (s : State) (i : Nat) : Byte :=
  (Memory.get? s.buf i).getD (Config.bufDraw s.resets i)

/-- `MemRead(addr, n)` (R10) as a number: `BUF[addr]` is the most significant byte. -/
def memRead (s : State) (addr : Nat) : (n : Nat) → Nat
  | 0 => 0
  | n + 1 => memRead s addr n * 256 + (readByte s (addr + n)).toNat

/-- `MemRead(addr, 4)` as a word (20_memory.md R54, R56). -/
def readWord (s : State) (addr : Nat) : Word := BitVec.ofNat 32 (memRead s addr 4)

/-- `BE32` (00_scope.md R11). -/
def be32 (b0 b1 b2 b3 : Byte) : Word := b0 ++ b1 ++ b2 ++ b3

/-- The end of every command (10_state.md R34), with ERRCODE `code`. -/
def complete (code : BitVec 4) (s : State) : State :=
  { s with status := s.status.completed code }

/-- The end of a command without an error: ERRCODE 0 (R34, 60_exceptions.md R165). -/
def succeed (s : State) : State := complete 0 s

/-- Taking a command error, `raise CmdError(e)`: the completion is all it does (60_exceptions.md R171, R176), so `s` is
the state before the command. There is no handler, vector or saved state (R176). -/
def raiseCmdError (e : CmdError) (s : State) : State := complete e.code s

/-- Taking a host-access error, `HostError(e)` (R174). The access itself is the caller's: a write is dropped, a read
answers 0. -/
def takeHostError (e : HostError) (s : State) : State :=
  { s with status := s.status.recordHostError e.cause }

/-- The recovery from either kind of error: the host writes `value` to STATUS (10_state.md R32, 60_exceptions.md R176). -/
def writeStatus (value : Word) (s : State) : State :=
  { s with status := s.status.clearedBy value }

/-- The acceptance of a command word (10_state.md R33). -/
def accept (word : Word) (s : State) : State :=
  { s with pending := word, status := s.status.accepted }

end Sys2Proof.Machine
end

