-- ==== Sys2Proof/Machine/Operands.lean ====
section
/-! DEFINITION. The operand forms: the block index of EXPAND and COMPRESS (41_expander.md R110) and the host's offset
(20_memory.md R50, R51). -/

namespace Sys2Proof.Machine

/-- The first byte of block `j` (R110; 30_encoding.md R82: not scaled otherwise). -/
def blockAddr (j : Nat) : Nat := 64 * j

/-- Block `j` lies inside BUF (R110). -/
abbrev blockExists (s : State) (j : Nat) : Prop := blockAddr j + 64 ≤ s.bufBytes

/-- What stands at a mapped offset (10_state.md section 2, 20_memory.md R51). -/
inductive Location where
  | id
  | bufsize
  | cmd
  | status
  | msglenLo
  | msglenHi
  | padlenLo
  | padlenHi
  | cmpcnt
  | treg
  | hash (i : Fin 5)
  | work (i : Fin 5)
  | sched (t : Fin 80)
  | bufWord (k : Nat)
  deriving DecidableEq, Repr

/-- The registers below offset 0x0028 (10_state.md section 2). -/
def controlRegister : Nat → Option Location
  | 0x0000 => some .id
  | 0x0004 => some .bufsize
  | 0x0008 => some .cmd
  | 0x000C => some .status
  | 0x0010 => some .msglenLo
  | 0x0014 => some .msglenHi
  | 0x0018 => some .padlenLo
  | 0x001C => some .padlenHi
  | 0x0020 => some .cmpcnt
  | 0x0024 => some .treg
  | _ => none

/-- What stands at the aligned offset `a` of an instance with `bufBytes` bytes of BUF, if anything does (R51). -/
def mapped (bufBytes a : Nat) : Option Location :=
  if a < 0x0028 then controlRegister a
  else if 0x0030 ≤ a ∧ a < 0x0044 then some (.hash (Fin.ofNat 5 ((a - 0x0030) / 4)))
  else if 0x0050 ≤ a ∧ a < 0x0064 then some (.work (Fin.ofNat 5 ((a - 0x0050) / 4)))
  else if 0x0100 ≤ a ∧ a < 0x0240 then some (.sched (Fin.ofNat 80 ((a - 0x0100) / 4)))
  else if 0x8000 ≤ a ∧ a < 0x8000 + bufBytes then some (.bufWord ((a - 0x8000) / 4))
  else none

/-- The location of a host access, or the error it meets: MISALIGNED before UNMAPPED (60_exceptions.md R175). -/
def locate (bufBytes : Nat) (a : Addr) : Except HostError Location :=
  if a.toNat % 4 ≠ 0 then .error .misaligned
  else
    match mapped bufBytes a.toNat with
    | some loc => .ok loc
    | none => .error .unmapped

/-- H0..H4 by number. -/
def HashState.get (h : HashState) : Fin 5 → Word
  | 0 => h.h0
  | 1 => h.h1
  | 2 => h.h2
  | 3 => h.h3
  | 4 => h.h4

/-- H0..H4 with one of them replaced. -/
def HashState.set (h : HashState) (i : Fin 5) (x : Word) : HashState :=
  match i with
  | 0 => { h with h0 := x }
  | 1 => { h with h1 := x }
  | 2 => { h with h2 := x }
  | 3 => { h with h3 := x }
  | 4 => { h with h4 := x }

/-- A..E by number. -/
def WorkVars.get (v : WorkVars) : Fin 5 → Word
  | 0 => v.a
  | 1 => v.b
  | 2 => v.c
  | 3 => v.d
  | 4 => v.e

end Sys2Proof.Machine
end

