-- ==== Sys2Proof/Machine/Expander.lean ====
section
/-! DEFINITION. The block expander: EXPAND (41_expander.md), and the rotation it shares with the rounds. -/

namespace Sys2Proof.Machine

/-- `ROTL_n` (00_scope.md R8), for 0 < n < 32. -/
def rotl (n : Nat) (x : Word) : Word := (x <<< n) ||| (x >>> (32 - n))

/-- W[0..n-1] from block `j`, for `n` up to 16 (R111, first loop). -/
def loadWords (s : State) (j : Nat) : (n : Nat) → Vector Word 80 → Vector Word 80
  | 0, w => w
  | n + 1, w => (loadWords s j n w).setIfInBounds n (readWord s (blockAddr j + 4 * n))

/-- The recurrence of R111: word `t`, for t = 16 .. 79, from words 3, 8, 14 and 16 places back. -/
def extendWord (t : Nat) (w : Vector Word 80) : Vector Word 80 :=
  if h : t < 80 then w.set t (rotl 1 (w[t - 3] ^^^ w[t - 8] ^^^ w[t - 14] ^^^ w[t - 16])) else w

/-- W[16..15+n], each from the words before it (R111, second loop, t rising). -/
def extendWords : (n : Nat) → Vector Word 80 → Vector Word 80
  | 0, w => w
  | n + 1, w => extendWord (16 + n) (extendWords n w)

/-- The whole schedule of block `j` (R111). -/
@[irreducible] def schedule (j : Nat) (s : State) : Vector Word 80 := extendWords 64 (loadWords s j 16 s.w)

/-- ExpandBody (R111) of block `j`. -/
def expandBody (j : Nat) (s : State) : State :=
  { s with w := schedule j s }

/-- EXPAND j (R112). -/
def execExpand (j : Nat) (s : State) : Host.Outcome State Fault Refusal :=
  .next (if blockExists s j then succeed (expandBody j s) else raiseCmdError .blockRange s)

end Sys2Proof.Machine
end

