-- ==== Sys2Proof/Machine/Compression.lean ====
section
/-! DEFINITION. The compression engine: LOADWV, ROUND, ACCUM, COMPRESS (42_compression.md). -/

namespace Sys2Proof.Machine

/-- The mixing functions (R121). -/
def ch (b c d : Word) : Word := (b &&& c) ||| (~~~b &&& d)
def parity (b c d : Word) : Word := b ^^^ c ^^^ d
def maj (b c d : Word) : Word := (b &&& c) ||| (b &&& d) ||| (c &&& d)

/-- `f_t` (R122). -/
def mix (t : Nat) (b c d : Word) : Word :=
  if t < 20 then ch b c d
  else if t < 40 then parity b c d
  else if t < 60 then maj b c d
  else parity b c d

/-- `K_t` (R122). -/
def roundConstant (t : Nat) : Word :=
  if t < 20 then Const.K0
  else if t < 40 then Const.K1
  else if t < 60 then Const.K2
  else Const.K3

/-- A..E after round `t` with schedule word `wt` (R123): every right-hand side reads the old values. -/
def roundVars (t : Nat) (wt : Word) (v : WorkVars) : WorkVars where
  a := rotl 5 v.a + mix t v.b v.c v.d + v.e + roundConstant t + wt
  b := v.a
  c := rotl 30 v.b
  d := v.c
  e := v.d

/-- RoundBody (R123). The rule requires T <= 79 and is used only there; elsewhere this function changes nothing
(DESIGN CHOICE, log entry 11). -/
def roundBody (s : State) : State :=
  if h : s.t.toNat < 80 then
    { s with v := roundVars s.t.toNat s.w[s.t.toNat] s.v, t := s.t + 1 }
  else s

/-- `n` RoundBodies. -/
def rounds : (n : Nat) → State → State
  | 0, s => s
  | n + 1, s => roundBody (rounds n s)

/-- "repeat 80 times: RoundBody" (R129, 43_digest.md R152). -/
@[irreducible] def allRounds (s : State) : State := rounds 80 s

/-- LoadBody (R124). -/
def loadBody (s : State) : State :=
  { s with v := ⟨s.h.h0, s.h.h1, s.h.h2, s.h.h3, s.h.h4⟩, t := 0 }

/-- The sums of AccumBody (R125), each modulo 2^32. -/
def accumHash (h : HashState) (v : WorkVars) : HashState :=
  ⟨h.h0 + v.a, h.h1 + v.b, h.h2 + v.c, h.h3 + v.d, h.h4 + v.e⟩

/-- AccumBody (R125). -/
def accumBody (s : State) : State :=
  { s with h := accumHash s.h s.v, t := Const.noBlock, cmpcnt := s.cmpcnt + 1 }

/-- The source's whole compressor on block `j`: the body of COMPRESS (R129) and of DIGEST's loop (43_digest.md R152). -/
def compressBody (j : Nat) (s : State) : State :=
  accumBody (allRounds (loadBody (expandBody j s)))

/-- LOADWV (R126). -/
def execLoadwv (s : State) : Host.Outcome State Fault Refusal :=
  .next (succeed (loadBody s))

/-- ROUND (R127). -/
def execRound (s : State) : Host.Outcome State Fault Refusal :=
  .next (if 79 < s.t.toNat then raiseCmdError .sequence s else succeed (roundBody s))

/-- ACCUM (R128). -/
def execAccum (s : State) : Host.Outcome State Fault Refusal :=
  .next (if s.t.toNat ≠ 80 then raiseCmdError .sequence s else succeed (accumBody s))

/-- COMPRESS j (R129). -/
def execCompress (j : Nat) (s : State) : Host.Outcome State Fault Refusal :=
  .next (if blockExists s j then succeed (compressBody j s) else raiseCmdError .blockRange s)

end Sys2Proof.Machine
end

