-- ==== Sys2Proof/Machine/Padder.lean ====
section
/-! DEFINITION. The padder: PAD (40_padder.md). -/

namespace Sys2Proof.Machine

/-- P(L), the padded length of a message of `len` bytes (R95, exact arithmetic). -/
def padLength (len : Nat) : Nat := 64 * ((len + 72) / 64)

/-- PadCheck (R97): the first check that fails, in the order of the rule. -/
def padCheck (s : State) : Option CmdError :=
  if 2 ^ 61 ≤ s.msglen.toNat then some .inputTooLarge
  else if s.bufBytes < padLength s.msglen.toNat then some .allocFailure
  else none

/-- Steps 2 to 4 of PadBody (R98): the marker, the zeros and the bit length. Step 1, the copy, is the identity
(20_memory.md R52). -/
def padMemory (len : Nat) (m : Memory) : Memory :=
  Memory.write (padLength len - 8) 8 (8 * len)
    (Memory.zeroFill (len + 1) (padLength len - len - 9)
      (Memory.put m len 0x80))

/-- PadBody (R98) of the message length in MSGLEN. -/
def padBody (s : State) : State :=
  { s with
    buf := padMemory s.msglen.toNat s.buf
    padlen := BitVec.ofNat 64 (padLength s.msglen.toNat) }

/-- PAD (R99). -/
def execPad (s : State) : Host.Outcome State Fault Refusal :=
  .next (match padCheck s with
    | some e => raiseCmdError e s
    | none => succeed (padBody s))

end Sys2Proof.Machine
end

