-- ==== Sys2Proof/Machine/Digest.lean ====
section
/-! DEFINITION. The digest orchestration: INIT, DIGEST, NOP (43_digest.md). -/

namespace Sys2Proof.Machine

/-- IV as a hash state (10_state.md R23). -/
def initialHash : HashState := ⟨Const.IV0, Const.IV1, Const.IV2, Const.IV3, Const.IV4⟩

/-- InitBody (R150). -/
def initBody (s : State) : State :=
  { s with h := initialHash, cmpcnt := 0, t := Const.noBlock }

/-- The digest as a 160-bit value, H0 in the most significant position (R155). -/
def HashState.toBits (h : HashState) : BitVec 160 := h.h0 ++ h.h1 ++ h.h2 ++ h.h3 ++ h.h4

/-- The digest as 20 bytes: BE32 of H0, then of H1, and so on (R155). -/
def HashState.toBytes (h : HashState) : List Byte :=
  (List.range 20).map (fun k => h.toBits.extractLsb' (8 * (19 - k)) 8)

/-- Blocks 0 .. n-1 in rising order (R152, the loop). -/
def digestBlocks : (n : Nat) → State → State
  | 0, s => s
  | n + 1, s => compressBody n (digestBlocks n s)

/-- What DIGEST does once PadCheck has passed (R152). -/
def digestBody (s : State) : State :=
  digestBlocks (padLength s.msglen.toNat / 64) (padBody (initBody s))

/-- NOP (R154). -/
def execNop (s : State) : Host.Outcome State Fault Refusal :=
  .next (succeed s)

/-- INIT (R151). -/
def execInit (s : State) : Host.Outcome State Fault Refusal :=
  .next (succeed (initBody s))

/-- DIGEST (R152): every check comes before the first write. -/
def execDigest (s : State) : Host.Outcome State Fault Refusal :=
  .next (match padCheck s with
    | some e => raiseCmdError e s
    | none => succeed (digestBody s))

end Sys2Proof.Machine
end

