-- ==== Sys2Proof/Syntax.lean ====
section
/-! DEFINITION. The command set: one constructor per row of spec/opcode_table.json (30_encoding.md R81). -/

namespace Sys2Proof

/-- A command of SHA1CORE. `j` is the block index of EXPAND and COMPRESS, the ARG field read as an unsigned number
(30_encoding.md R82); an index of 2^24 or more has no word (DESIGN CHOICE, log entry 12). -/
inductive Instr where
  | nop
  | init
  | pad
  | expand (j : Nat)
  | loadwv
  | round
  | accum
  | compress (j : Nat)
  | digest
  deriving DecidableEq, Repr

end Sys2Proof
end

