-- ==== Sys2Proof/Machine/Dispatch.lean ====
section
/-! DEFINITION. One arm per command. -/

namespace Sys2Proof.Machine

def exec (i : Instr) (s : State) : Host.Outcome State Fault Refusal :=
  match i with
  | .nop => Sys2Proof.Machine.execNop s
  | .init => Sys2Proof.Machine.execInit s
  | .pad => Sys2Proof.Machine.execPad s
  | .expand j => Sys2Proof.Machine.execExpand j s
  | .loadwv => Sys2Proof.Machine.execLoadwv s
  | .round => Sys2Proof.Machine.execRound s
  | .accum => Sys2Proof.Machine.execAccum s
  | .compress j => Sys2Proof.Machine.execCompress j s
  | .digest => Sys2Proof.Machine.execDigest s

end Sys2Proof.Machine
end

