-- ==== Sys2Proof/WellFormed.lean ====
section
/-! DEFINITION. Which terms of `Instr` stand for a command word: the block index fits the 24-bit ARG field. -/

namespace Sys2Proof

/-- The command has an encoding (30_encoding.md R82: "Every value 0 .. 2^24 - 1 encodes"). -/
def WellFormed : Instr → Bool
  | .nop => true
  | .init => true
  | .pad => true
  | .expand j => decide (j < 2 ^ 24)
  | .loadwv => true
  | .round => true
  | .accum => true
  | .compress j => decide (j < 2 ^ 24)
  | .digest => true

end Sys2Proof
end

