-- ==== Sys2Proof/Decode.lean ====
section
/-! DEFINITION. The command decoder of 30_encoding.md R85, total on all 2^32 words, and the encoder of R87 and R88. -/

namespace Sys2Proof

/-- Why a word is no command (30_encoding.md R84): both kinds complete with ILLEGAL_CMD (60_exceptions.md R166). -/
inductive DecodeError where
  /-- OPC is in 0x09 .. 0xFF (R84 (a)). -/
  | reservedOpcode
  /-- OPC is legal, ARG must be 0 and is not (R84 (b), R83). -/
  | nonzeroArg
  deriving DecidableEq, Repr

/-- OPC, bits 7:0 of a command word (R80). -/
def opcField (v : Word) : Nat := (v.extractLsb' 0 8).toNat

/-- ARG, bits 31:8 of a command word (R80), zero-extended and unscaled (R82). -/
def argField (v : Word) : Nat := (v.extractLsb' 8 24).toNat

/-- A command whose ARG must be 0 (R83). -/
def withoutArg (arg : Nat) (i : Instr) : Except DecodeError Instr :=
  if arg = 0 then .ok i else .error .nonzeroArg

/-- The decoder, row by row as R85 has it. -/
def decode (v : Word) : Except DecodeError Instr :=
  match opcField v with
  | 0x00 => withoutArg (argField v) .nop
  | 0x01 => withoutArg (argField v) .init
  | 0x02 => withoutArg (argField v) .pad
  | 0x03 => .ok (.expand (argField v))
  | 0x04 => withoutArg (argField v) .loadwv
  | 0x05 => withoutArg (argField v) .round
  | 0x06 => withoutArg (argField v) .accum
  | 0x07 => .ok (.compress (argField v))
  | 0x08 => withoutArg (argField v) .digest
  | _ => .error .reservedOpcode

/-- The opcode of R81. -/
def opcodeOf : Instr → Nat
  | .nop => 0x00
  | .init => 0x01
  | .pad => 0x02
  | .expand _ => 0x03
  | .loadwv => 0x04
  | .round => 0x05
  | .accum => 0x06
  | .compress _ => 0x07
  | .digest => 0x08

/-- The ARG operand of R81. -/
def argOf : Instr → Nat
  | .nop => 0
  | .init => 0
  | .pad => 0
  | .expand j => j
  | .loadwv => 0
  | .round => 0
  | .accum => 0
  | .compress j => j
  | .digest => 0

/-- `enc(M)` of R87: OPC OR (j << 8). The bits of ARG above its 24 are dropped, so only a well-formed command has its
own word. -/
def encode (i : Instr) : Word :=
  BitVec.ofNat 32 (opcodeOf i) ||| (BitVec.ofNat 32 (argOf i) <<< 8)

/-- What the decoder reads from a row's word, its bits above `nbits` being 0. A command word has 32 bits (R80). -/
def decodeTableWord (nbits w : Nat) : Option Instr :=
  if w % 2 ^ nbits < 2 ^ 32 then
    match decode (BitVec.ofNat 32 (w % 2 ^ nbits)) with
    | .ok i => some i
    | .error _ => none
  else none

end Sys2Proof
end

