-- ==== Sys2Proof/Machine/HostPort.lean ====
section
/-! DEFINITION. The host's steps: reads, writes and reset (20_memory.md R50 to R59, 70_reset_and_hazards.md R190), and
the fetch of the pending command. -/

namespace Sys2Proof.Machine

/-- The volatile state (10_state.md R38): what a command may write. The rest is stable. -/
def Location.volatile : Location → Bool
  | .id => false
  | .bufsize => false
  | .cmd => false
  | .status => false
  | .msglenLo => false
  | .msglenHi => false
  | .padlenLo => true
  | .padlenHi => true
  | .cmpcnt => true
  | .treg => true
  | .hash _ => true
  | .work _ => true
  | .sched _ => true
  | .bufWord _ => true

/-- The 32-bit value of a location (R54, R55; CMD reads 0 by 10_state.md R33; bits 31:7 of TREG are 0 by R26). -/
def readLocation (s : State) : Location → Word
  | .id => Const.ID
  | .bufsize => BitVec.ofNat 32 s.bufBytes
  | .cmd => 0
  | .status => s.status.toWord
  | .msglenLo => s.msglen.extractLsb' 0 32
  | .msglenHi => s.msglen.extractLsb' 32 32
  | .padlenLo => s.padlen.extractLsb' 0 32
  | .padlenHi => s.padlen.extractLsb' 32 32
  | .cmpcnt => s.cmpcnt
  | .treg => s.t.setWidth 32
  | .hash i => s.h.get i
  | .work i => s.v.get i
  | .sched t => s.w[t]
  | .bufWord k => readWord s (4 * k)

/-- The answer of a host read and the state after it. A read has no side effect (R55, R59 (c)) but a recorded error;
`draws` counts the draws of R58 and is no state of the machine. -/
def answerRead (a : Addr) (s : State) : Word × State :=
  match locate s.bufBytes a with
  | .error e => (0, takeHostError e s)
  | .ok loc =>
    if s.status.busy && loc.volatile then (Config.busyRead s.draws, { s with draws := s.draws + 1 })
    else (readLocation s loc, s)

/-- A host read at offset `a`: its answer is recorded (DESIGN CHOICE, log entry 6). -/
def hostRead (a : Addr) (s : State) : State :=
  { (answerRead a s).2 with reads := (a, (answerRead a s).1) :: s.reads }

/-- A write of `value` to a mapped location while BUSY = 0 (R53, R57; 10_state.md R33). A write of STATUS does not come
here. -/
def writeIdle (value : Word) (s : State) : Location → State
  | .cmd => accept value s
  | .status => writeStatus value s
  | .msglenLo => { s with msglen := s.msglen.extractLsb' 32 32 ++ value }
  | .msglenHi => { s with msglen := value ++ s.msglen.extractLsb' 0 32 }
  | .hash i => { s with h := s.h.set i value }
  | .bufWord k => { s with buf := Memory.write (4 * k) 4 value.toNat s.buf }
  | .id => takeHostError .writeRo s
  | .bufsize => takeHostError .writeRo s
  | .padlenLo => takeHostError .writeRo s
  | .padlenHi => takeHostError .writeRo s
  | .cmpcnt => takeHostError .writeRo s
  | .treg => takeHostError .writeRo s
  | .work _ => takeHostError .writeRo s
  | .sched _ => takeHostError .writeRo s

/-- A host write of `value` at offset `a` (R57; the priority of 60_exceptions.md R175). -/
def hostWrite (a : Addr) (value : Word) (s : State) : State :=
  match locate s.bufBytes a with
  | .error e => takeHostError e s
  | .ok loc =>
    if loc = .status then writeStatus value s
    else if s.status.busy then takeHostError .writeWhileBusy s
    else writeIdle value s loc

/-- The reset step (70_reset_and_hazards.md R190), at any time. Every byte of BUF is drawn afresh (R191). What is not
the machine's state stays: the instance's capacity, the host's turns and what its reads returned (DESIGN CHOICE, log entry
14). -/
def resetStep (s : State) : State :=
  { State.reset with
    capacity := s.capacity
    resets := s.resets + 1
    draws := s.draws
    script := s.script
    reads := s.reads }

/-- The command in PENDING, as the core decodes it (10_state.md R34). -/
def pendingCommand (s : State) : Except DecodeError Instr := decode s.pending

/-- `Execute(Illegal)` and its completion (30_encoding.md R85, 60_exceptions.md R166). -/
def illegalCommand (s : State) : State := raiseCmdError .illegalCmd s

/-- The word `w` accepted (10_state.md R33) with the core taking the next turn: the bits of `w` above `nbits` are 0. -/
def commandAccepted (nbits w : Nat) (s : State) : State :=
  let s' := accept (BitVec.ofNat 32 (w % 2 ^ nbits)) s
  { s' with script := .core :: s'.script }

end Sys2Proof.Machine
end

