-- ==== Sys2Proof/Machine/CoreTurn.lean ====
section
/-! DEFINITION. The core step (10_state.md R34). -/

namespace Sys2Proof.Machine

/-- The core's turn (10_state.md R34): enabled only while BUSY = 1, it runs the pending command whole. While BUSY = 0 the
core does nothing (60_exceptions.md R183, DEDUCED, log entry 2). -/
def coreTurn (s : State) : Host.Outcome State Fault Refusal :=
  if s.status.busy then
    match pendingCommand s with
    | .ok i => exec i s
    | .error _ => .next (illegalCommand s)
  else .next s

end Sys2Proof.Machine
end

