-- ==== Sys2Proof/Machine/Step.lean ====
section
/-! DEFINITION. The step: one turn of the host or the core (00_scope.md R12). -/

namespace Sys2Proof.Machine

/-- One turn: the next of `script`, and the core's once `script` is empty (weak fairness, 70_reset_and_hazards.md R201,
DESIGN CHOICE, log entry 1). -/
def step (s : State) : Host.Outcome State Fault Refusal :=
  match s.script with
  | [] => coreTurn s
  | .core :: rest => coreTurn { s with script := rest }
  | .read a :: rest => .next (hostRead a { s with script := rest })
  | .write a value :: rest => .next (hostWrite a value { s with script := rest })
  | .reset :: rest => .next (resetStep { s with script := rest })

/-- SHA1CORE fetches nothing: a host's CMD write hands it a word (20_memory.md R61). This stands for that write being
accepted (10_state.md R33) with the core's turn next, so that the next step runs the word. DESIGN CHOICE, log entry 9. -/
def State.withFetchWord (s : State) (nbits w : Nat) : State := commandAccepted nbits w s

end Sys2Proof.Machine
end

