-- ==== Sys2Proof/Machine/HostProgram.lean ====
section
/-! DEFINITION. The host program notation of 30_encoding.md R86 and R87: each line as the turns it stands for. `rd`, `wr`
and `reset` are the turns themselves. -/

namespace Sys2Proof.Machine

/-- The offset of CMD (10_state.md R33). -/
def Notation.CMD : Addr := 0x0008

/-- The offset of STATUS (10_state.md R31). -/
def Notation.STATUS : Addr := 0x000C

/-- The offset of BUF word `k` (20_memory.md R52), which for `k` < 8192 is at most 0xFFFC. For a larger `k` the sum passes
the last offset 0xFFFF (R50) and the spec gives the line no expansion: here it is taken modulo 2^16 (DESIGN CHOICE, log
entry 17). -/
def Notation.bufWordAddr (k : Nat) : Addr := BitVec.ofNat 16 (0x8000 + 4 * k)

/-- `cmd M` with a word as it stands, a reserved or illegal one too (R87). -/
def Notation.cmdWord (v : Word) : List Turn := [.write Notation.CMD v]

/-- `cmd M` with a mnemonic (R87). -/
def Notation.cmd (i : Instr) : List Turn := Notation.cmdWord (encode i)

/-- `wait` (R87) in the run whose first `k` polls come before the core step: in a fair run the loop is `k` polls that
read BUSY = 1, the core step, and a poll that reads BUSY = 0 (70_reset_and_hazards.md R201, DESIGN CHOICE, log entry 15). -/
def Notation.wait (k : Nat) : List Turn :=
  List.replicate k (.read Notation.STATUS) ++ [.core, .read Notation.STATUS]

/-- `exec M` (R87) with a word as it stands, such as `exec 0x09`, with `k` polls before the core step. -/
def Notation.executeWord (k : Nat) (v : Word) : List Turn := Notation.cmdWord v ++ Notation.wait k

/-- `exec M` (R87) with a mnemonic, with `k` polls before the core step. -/
def Notation.execute (k : Nat) (i : Instr) : List Turn := Notation.executeWord k (encode i)

/-- `rounds n` (R87), with `polls i` polls before the core step of its `i`-th `exec ROUND`, i = 0 .. n-1. -/
def Notation.rounds (polls : Nat → Nat) : (n : Nat) → List Turn
  | 0 => []
  | n + 1 => Notation.rounds polls n ++ Notation.execute (polls n) .round

/-- The word that `loadmsg` writes at BUF word `k`: bytes past the message are 0x00 (R87). -/
def Notation.messageWord (m : List Byte) (k : Nat) : Word :=
  be32 (m.getD (4 * k) 0) (m.getD (4 * k + 1) 0) (m.getD (4 * k + 2) 0) (m.getD (4 * k + 3) 0)

/-- `loadmsg` (R87): the message, whole words, then its length. A message of more than 32768 bytes has words past the
offset space (`bufWordAddr`; DESIGN CHOICE, log entry 17). -/
def Notation.loadmsg (m : List Byte) : List Turn :=
  (List.range ((m.length + 3) / 4)).map (fun k => .write (Notation.bufWordAddr k) (Notation.messageWord m k))
    ++ [.write 0x0010 (BitVec.ofNat 32 m.length), .write 0x0014 (BitVec.ofNat 32 (m.length / 2 ^ 32))]

/-- The reads of H0..H4, in the order of the digest's words (43_digest.md R155). -/
def Notation.readDigest : List Turn :=
  [.read 0x0030, .read 0x0034, .read 0x0038, .read 0x003C, .read 0x0040]

/-- The source's call `digest(message, length)` as the host makes it (43_digest.md R156), with `k` polls before the core
step. A message of more than 32768 bytes is as in `loadmsg` (DESIGN CHOICE, log entry 17). -/
def Notation.digestCall (k : Nat) (m : List Byte) : List Turn :=
  Notation.loadmsg m ++ Notation.execute k .digest ++ [.read Notation.STATUS] ++ Notation.readDigest

/-- `clr` (R87). -/
def Notation.clr : List Turn := [.write Notation.STATUS 0x0000000E]

end Sys2Proof.Machine
end

