-- ==== Sys2Proof/Safety.lean ====
section
/-! DEFINITION. The terms the claims use: how a command ends, the message and the digest it must give (an algorithm over
byte lists, written from the rules without the machine), runs of commands, and the invariant of every step. -/

namespace Sys2Proof.Machine

/-- STATUS after a command that succeeded (10_state.md R34). -/
def Status.afterSuccess (st : Status) : Status where
  busy := false
  done := true
  err := false
  herr := st.herr
  errCode := 0
  herrCause := st.herrCause

/-- STATUS after a command that failed with `code` (10_state.md R34, 60_exceptions.md R171). -/
def Status.afterError (code : BitVec 4) (st : Status) : Status where
  busy := false
  done := true
  err := true
  herr := st.herr
  errCode := code
  herrCause := st.herrCause

/-- STATUS after a host-access error of `cause` (60_exceptions.md R174): the first cause stays while HERR is set. -/
def Status.afterHostError (cause : BitVec 4) (st : Status) : Status where
  busy := st.busy
  done := st.done
  err := st.err
  herr := true
  errCode := st.errCode
  herrCause := if st.herr then st.herrCause else cause

/-- The state a turn acts on: the turn is no longer scheduled. -/
def State.afterTurn (s : State) : State := { s with script := s.script.tail }

/-- The core has the next turn: it is scheduled, or nothing is (70_reset_and_hazards.md R201). -/
abbrev State.coreIsNext (s : State) : Prop := s.script.head?.getD .core = .core

/-- The message: BUF[0 .. MSGLEN-1] (00_scope.md glossary). -/
def State.message (s : State) : List Byte := (List.range s.msglen.toNat).map (readByte s)

/-- The 64 bytes of block `j` (41_expander.md R110). -/
def State.block (s : State) (j : Nat) : List Byte := (List.range 64).map (fun i => readByte s (64 * j + i))

/-- The registers of 10_state.md section 2 whose value no command writes but at its completion (R38, stable): offset and
value read. -/
def State.stableRegisters (s : State) : List (Addr × Word) :=
  [(0x0000, 0x53484131), (0x0004, BitVec.ofNat 32 s.bufBytes), (0x0008, 0x00000000), (0x000C, s.status.toWord),
    (0x0010, s.msglen.extractLsb' 0 32), (0x0014, s.msglen.extractLsb' 32 32)]

/-- The volatile registers that the host may write (H0..H4, R22): offset and value read. -/
def State.hashRegisters (s : State) : List (Addr × Word) :=
  [(0x0030, s.h.h0), (0x0034, s.h.h1), (0x0038, s.h.h2), (0x003C, s.h.h3), (0x0040, s.h.h4)]

/-- PADLEN, CMPCNT and TREG: offset and value read. -/
def State.countRegisters (s : State) : List (Addr × Word) :=
  [(0x0018, s.padlen.extractLsb' 0 32), (0x001C, s.padlen.extractLsb' 32 32), (0x0020, s.cmpcnt),
    (0x0024, BitVec.ofNat 32 s.t.toNat)]

/-- A..E: offset and value read. -/
def State.workRegisters (s : State) : List (Addr × Word) :=
  [(0x0050, s.v.a), (0x0054, s.v.b), (0x0058, s.v.c), (0x005C, s.v.d), (0x0060, s.v.e)]

/-- W[0..79]: offset and value read. -/
def State.scheduleRegisters (s : State) : List (Addr × Word) :=
  (List.finRange 80).map (fun t => (BitVec.ofNat 16 (0x0100 + 4 * t.val), s.w[t]))

/-- The volatile registers that the host may only read (PADLEN, CMPCNT, TREG, A..E, W[0..79]): offset and value read. -/
def State.resultRegisters (s : State) : List (Addr × Word) :=
  s.countRegisters ++ s.workRegisters ++ s.scheduleRegisters

/-- Commands run one after another, each to its completion, with nothing between them. -/
def runCommands : List Instr → State → State
  | [], s => s
  | i :: is, s =>
    match exec i s with
    | .next t => runCommands is t
    | .fault _ => s
    | .refused _ => s

/-- The commands that accumulate one block: COMPRESS and ACCUM. -/
def accumulates : Instr → Bool
  | .nop => false
  | .init => false
  | .pad => false
  | .expand _ => false
  | .loadwv => false
  | .round => false
  | .accum => true
  | .compress _ => true
  | .digest => false

/-- How many of the commands are a COMPRESS or an ACCUM that succeeds, when they run one after another. -/
def successfulAccumulations : List Instr → State → Nat
  | [], _ => 0
  | i :: is, s =>
    match exec i s with
    | .next t => (if accumulates i && !t.status.err then 1 else 0) + successfulAccumulations is t
    | .fault _ => 0
    | .refused _ => 0

/-- The fields of STATUS agree with one another: an error flag is set exactly when its code is not 0, the codes are those of
60_exceptions.md R165 and R173, and a command that is running has set neither DONE nor ERR (10_state.md R33, R34). -/
abbrev Status.Coherent (st : Status) : Prop :=
  st.err = (st.errCode != 0) ∧ st.herr = (st.herrCause != 0) ∧ st.errCode.toNat ≤ 5 ∧ st.herrCause.toNat ≤ 4 ∧
    (st.busy = true → st.done = false ∧ st.err = false)

/-- The invariant of every step: BUF is in canonical form and inside its BUF_BYTES bytes, T is one of the values of
10_state.md R27, STATUS is coherent, and PADLEN is a whole number of blocks of BUF (R29). -/
abbrev State.Inv (s : State) : Prop :=
  Memory.wf s.bufBytes s.buf = true ∧ s.t.toNat ≤ 81 ∧ s.status.Coherent ∧ s.padlen.toNat % 64 = 0 ∧
    s.padlen.toNat ≤ s.bufBytes

end Sys2Proof.Machine

namespace Sys2Proof.Reference

open Sys2Proof.Machine (HashState WorkVars)

/-- The padding of a message of `n` bytes (40_padder.md): 0x80, as few zeros as fill the block, and the bit length,
big-endian. -/
def padding (n : Nat) : List Byte :=
  0x80 :: (List.replicate ((64 - (n + 9) % 64) % 64) 0
    ++ (List.range 8).map (fun k => BitVec.ofNat 8 (8 * n / 256 ^ (7 - k))))

/-- The padded message. -/
def padded (m : List Byte) : List Byte := m ++ padding m.length

/-- Big-endian word `i` of a block (00_scope.md R11). -/
def wordAt (block : List Byte) (i : Nat) : Word :=
  block.getD (4 * i) 0 ++ block.getD (4 * i + 1) 0 ++ block.getD (4 * i + 2) 0 ++ block.getD (4 * i + 3) 0

/-- The first 16 + n words of the schedule of a block (41_expander.md). -/
def words (block : List Byte) : (n : Nat) → List Word
  | 0 => (List.range 16).map (wordAt block)
  | n + 1 =>
    let ws := words block n
    ws ++ [(ws.getD (n + 13) 0 ^^^ ws.getD (n + 8) 0 ^^^ ws.getD (n + 2) 0 ^^^ ws.getD n 0).rotateLeft 1]

/-- The 80 words of the schedule of a block. -/
@[irreducible] def schedule (block : List Byte) : List Word := words block 64

/-- The mixing function of round `t` (42_compression.md R121, R122), by quarter. -/
def mixing (t : Nat) (b c d : Word) : Word :=
  match t / 20 with
  | 0 => (b &&& c) ||| (~~~b &&& d)
  | 2 => (b &&& c) ||| (b &&& d) ||| (c &&& d)
  | _ => b ^^^ c ^^^ d

/-- The constant of round `t` (42_compression.md R120, R122), by quarter. -/
def constant (t : Nat) : Word :=
  match t / 20 with
  | 0 => 0x5A827999
  | 1 => 0x6ED9EBA1
  | 2 => 0x8F1BBCDC
  | _ => 0xCA62C1D6

/-- Round `t` (42_compression.md R123) with schedule word `x`. -/
def round (x : Word) (t : Nat) (v : WorkVars) : WorkVars :=
  ⟨v.a.rotateLeft 5 + mixing t v.b v.c v.d + v.e + constant t + x, v.a, v.b.rotateLeft 30, v.c, v.d⟩

/-- The compressor (42_compression.md R129) on a hash state and a block of 64 bytes. -/
def compress (h : HashState) (block : List Byte) : HashState :=
  let v := (List.range 80).foldl (fun v t => round ((schedule block).getD t 0) t v) ⟨h.h0, h.h1, h.h2, h.h3, h.h4⟩
  ⟨h.h0 + v.a, h.h1 + v.b, h.h2 + v.c, h.h3 + v.d, h.h4 + v.e⟩

/-- The digest of a message (43_digest.md R152, 10_state.md R23): every 64-byte block of the padded message, in order. -/
def sha1 (m : List Byte) : HashState :=
  (List.range ((padded m).length / 64)).foldl (fun h j => compress h (((padded m).drop (64 * j)).take 64))
    ⟨0x67452301, 0xEFCDAB89, 0x98BADCFE, 0x10325476, 0xC3D2E1F0⟩

end Sys2Proof.Reference
end

