-- ==== Sys2Proof/Certificates/Slice0/Obligations.lean ====
section
/-! DEFINITION. The statements for the provers. Each docstring names the rule of spec/ it formalises. -/

open Sys2Proof Sys2Proof.Machine

/-! Encoding -/

/-- 30_encoding.md R85: the decoder on every word, with OPC = v[7:0] and ARG = v[31:8] as numbers, and what the core
does with a word that is no command. -/
def Obligations.DecoderFollowsOpcodeMap : Prop :=
  (∀ v : Word,
    (∀ p ∈ [(0x00, Instr.nop), (0x01, Instr.init), (0x02, Instr.pad), (0x04, Instr.loadwv), (0x05, Instr.round),
        (0x06, Instr.accum), (0x08, Instr.digest)],
      v.toNat % 256 = p.1 → decode v = if v.toNat / 256 = 0 then .ok p.2 else .error .nonzeroArg) ∧
    (v.toNat % 256 = 0x03 → decode v = .ok (.expand (v.toNat / 256))) ∧
    (v.toNat % 256 = 0x07 → decode v = .ok (.compress (v.toNat / 256))) ∧
    (0x09 ≤ v.toNat % 256 → decode v = .error .reservedOpcode)) ∧
  ∀ (s : State) (e : DecodeError), s.coreIsNext → s.status.busy = true → decode s.pending = .error e →
    step s = .next (raiseCmdError .illegalCmd s.afterTurn)

/-- 30_encoding.md R88 and the command words of 95_test_vectors.md: written-out words decode to their commands. -/
def Obligations.SpecWordsDecode : Prop :=
  decode 0x00000000 = .ok .nop ∧ decode 0x00000001 = .ok .init ∧ decode 0x00000002 = .ok .pad ∧
  decode 0x00000103 = .ok (.expand 1) ∧ decode 0x0001FF03 = .ok (.expand 511) ∧
  decode 0xFFFFFF03 = .ok (.expand 16777215) ∧ decode 0x00000004 = .ok .loadwv ∧ decode 0x00000005 = .ok .round ∧
  decode 0x00000006 = .ok .accum ∧ decode 0x00000007 = .ok (.compress 0) ∧ decode 0x00000107 = .ok (.compress 1) ∧
  decode 0x00000008 = .ok .digest ∧ decode 0x00000102 = .error .nonzeroArg ∧
  decode 0x12345609 = .error .reservedOpcode

/-- 30_encoding.md R82, R87: every well-formed command, with every block index 0 .. 2^24 - 1, is what its own word
decodes to. -/
def Obligations.DecodeEncodeRoundTrip : Prop :=
  ∀ i : Instr, WellFormed i = true → decode (encode i) = .ok i

/-- 30_encoding.md R83: a command has one legal word. -/
def Obligations.LegalWordIsUnique : Prop :=
  ∀ (v : Word) (i : Instr), decode v = .ok i → WellFormed i = true ∧ encode i = v

/-- The model's way to run a word (log entry 9): the word of a well-formed command, accepted as a CMD write accepts it
(10_state.md R33) with the core's turn next, is decoded and run by the very next step. -/
def Obligations.FetchedWordRunsNext : Prop :=
  ∀ (s : State) (i : Instr), WellFormed i = true →
    decodeTableWord 32 (encode i).toNat = some i ∧
    step (s.withFetchWord 32 (encode i).toNat) = exec i (accept (encode i) s)

/-! The core step -/

/-- 10_state.md R34: a core step runs the command that PENDING decodes to, on the state with that turn taken. -/
def Obligations.CoreStepRunsDecodedCommand : Prop :=
  ∀ (s : State) (i : Instr), s.coreIsNext → s.status.busy = true → decode s.pending = .ok i →
    step s = exec i s.afterTurn

/-- 60_exceptions.md R166: a reserved OPC, or a nonzero ARG where ARG must be 0, completes with ILLEGAL_CMD whatever else
holds, and nothing but STATUS changes. -/
def Obligations.IllegalWordReportsIllegalCmd : Prop :=
  ∀ s : State, s.coreIsNext → s.status.busy = true →
    (0x09 ≤ s.pending.toNat % 256 ∨
      s.pending.toNat % 256 ∈ [0x00, 0x01, 0x02, 0x04, 0x05, 0x06, 0x08] ∧ s.pending.toNat / 256 ≠ 0) →
    step s = .next { s.afterTurn with status := s.status.afterError 1 }

/-- 60_exceptions.md R183: while BUSY = 0 the core does nothing. That a core turn scheduled then is no error is the
model's reading of R34's "enabled if and only if" (log entry 2). -/
def Obligations.IdleCoreKeepsState : Prop :=
  ∀ s : State, s.coreIsNext → s.status.busy = false → step s = .next s.afterTurn

/-- 93_implementation_defined.md section 1: "every command and every host access on every state has a defined result". -/
def Obligations.EveryStepAnswersNext : Prop :=
  ∀ s : State, ∃ t, step s = .next t

/-- 10_state.md R34: a core step on a pending command clears BUSY, sets DONE, makes ERR agree with ERRCODE, and leaves
HERR and HERRCAUSE. That PENDING keeps its word is the model's reading (log entry 8). -/
def Obligations.CoreStepCompletesCommand : Prop :=
  ∀ s : State, s.coreIsNext → s.status.busy = true →
    ∃ t, step s = .next t ∧ t.status.busy = false ∧ t.status.done = true ∧
      (t.status.err = true ↔ t.status.errCode ≠ 0) ∧ t.status.herr = s.status.herr ∧
      t.status.herrCause = s.status.herrCause ∧ t.pending = s.pending

/-! The commands -/

/-- 43_digest.md R154: NOP completes and does nothing else. -/
def Obligations.NopResult : Prop :=
  ∀ s : State, exec .nop s = .next { s with status := s.status.afterSuccess }

/-- 43_digest.md R150: INIT writes H, CMPCNT and T and leaves A..E, W, PADLEN, MSGLEN and BUF. -/
def Obligations.InitResult : Prop :=
  ∀ s : State, exec .init s = .next { s with
    h := ⟨0x67452301, 0xEFCDAB89, 0x98BADCFE, 0x10325476, 0xC3D2E1F0⟩
    cmpcnt := 0
    t := 81
    status := s.status.afterSuccess }

/-- 42_compression.md R124: LOADWV copies H to A..E and sets T = 0, and writes nothing else. -/
def Obligations.LoadwvResult : Prop :=
  ∀ s : State, exec .loadwv s = .next { s with
    v := ⟨s.h.h0, s.h.h1, s.h.h2, s.h.h3, s.h.h4⟩
    t := 0
    status := s.status.afterSuccess }

/-- 42_compression.md R123, with the functions of R121 and the selection by quarter of R122: ROUND at T = t <= 79, with
library rotations, and nothing else is written. -/
def Obligations.RoundResult : Prop :=
  ∀ (s : State) (t : Nat) (h : t < 80), s.t.toNat = t →
    exec .round s = .next { s with
      v := ⟨s.v.a.rotateLeft 5 + Reference.mixing t s.v.b s.v.c s.v.d + s.v.e + Reference.constant t + s.w[t],
        s.v.a, s.v.b.rotateLeft 30, s.v.c, s.v.d⟩
      t := BitVec.ofNat 7 (t + 1)
      status := s.status.afterSuccess }

/-- 42_compression.md R122: the mixing function and the constant of each quarter, by the bounds of the table. -/
def Obligations.RoundSelectionFollowsTable : Prop :=
  ∀ (t : Nat) (b c d : Word),
    (t ≤ 19 → mix t b c d = (b &&& c) ||| ((~~~b) &&& d) ∧ roundConstant t = 0x5A827999) ∧
    (20 ≤ t ∧ t ≤ 39 → mix t b c d = b ^^^ c ^^^ d ∧ roundConstant t = 0x6ED9EBA1) ∧
    (40 ≤ t ∧ t ≤ 59 →
      mix t b c d = (b &&& c) ||| (b &&& d) ||| (c &&& d) ∧ roundConstant t = 0x8F1BBCDC) ∧
    (60 ≤ t ∧ t ≤ 79 → mix t b c d = b ^^^ c ^^^ d ∧ roundConstant t = 0xCA62C1D6)

/-- 42_compression.md R125: ACCUM at T = 80 adds A..E into H, sets T = 81, counts the block, and writes nothing else. -/
def Obligations.AccumResult : Prop :=
  ∀ s : State, s.t.toNat = 80 → exec .accum s = .next { s with
    h := ⟨s.h.h0 + s.v.a, s.h.h1 + s.v.b, s.h.h2 + s.v.c, s.h.h3 + s.v.d, s.h.h4 + s.v.e⟩
    t := 81
    cmpcnt := s.cmpcnt + 1
    status := s.status.afterSuccess }

/-- 60_exceptions.md R170: SEQUENCE is raised by ROUND when T > 79 and by ACCUM when T != 80. -/
def Obligations.SequenceErrors : Prop :=
  ∀ s : State,
    (79 < s.t.toNat → exec .round s = .next { s with status := s.status.afterError 5 }) ∧
    (s.t.toNat ≠ 80 → exec .accum s = .next { s with status := s.status.afterError 5 })

/-- 41_expander.md R111: EXPAND of a block of BUF fills W as the rule says and writes nothing else. -/
def Obligations.ExpandResult : Prop :=
  ∀ (s : State) (j : Nat), 64 * j + 64 ≤ s.bufBytes →
    ∃ w : Vector Word 80,
      exec (.expand j) s = .next { s with w := w, status := s.status.afterSuccess } ∧
      (∀ (i : Nat) (h : i < 16), w[i] = BitVec.ofNat 32 (memRead s (64 * j + 4 * i) 4)) ∧
      ∀ (t : Nat) (h : t < 80), 16 ≤ t →
        w[t] = (w[t - 3] ^^^ w[t - 8] ^^^ w[t - 14] ^^^ w[t - 16]).rotateLeft 1

/-- 41_expander.md R113: the first 16 words are the block, the other 64 are a function of those 16 alone, and so the
schedule depends only on the 64 bytes of the block. -/
def Obligations.ScheduleDependsOnlyOnBlock : Prop :=
  ∀ (s s' t t' : State) (j j' : Nat), 64 * j + 64 ≤ s.bufBytes → 64 * j' + 64 ≤ s'.bufBytes →
    exec (.expand j) s = .next t → exec (.expand j') s' = .next t' →
    (∀ (i : Nat) (h : i < 16), t.w[i] = BitVec.ofNat 32 (memRead s (64 * j + 4 * i) 4)) ∧
    ((∀ (i : Nat) (h : i < 16), t.w[i] = t'.w[i]) → t.w = t'.w) ∧
    (s.block j = s'.block j' → t.w = t'.w)

/-- 60_exceptions.md R167: EXPAND and COMPRESS of a block that does not lie inside BUF report BLOCK_RANGE and change
nothing but STATUS. -/
def Obligations.BlockRangeErrors : Prop :=
  ∀ (s : State) (j : Nat), s.bufBytes < 64 * j + 64 →
    exec (.expand j) s = .next { s with status := s.status.afterError 2 } ∧
    exec (.compress j) s = .next { s with status := s.status.afterError 2 }

/-- 40_padder.md R98: PAD, once PadCheck has passed, writes the marker, the zeros, the bit length and PADLEN; every other
byte of BUF and every other register keeps its value. -/
def Obligations.PadResult : Prop :=
  ∀ (s : State) (len p : Nat), len = s.msglen.toNat → p = 64 * ((len + 72) / 64) → len < 2 ^ 61 → p ≤ s.bufBytes →
    len + 9 ≤ p ∧ p ≤ len + 72 ∧
    ∃ t, exec .pad s = .next t ∧
      t = { s with buf := t.buf, padlen := BitVec.ofNat 64 p, status := s.status.afterSuccess } ∧
      (∀ a, a < len → readByte t a = readByte s a) ∧
      readByte t len = 0x80 ∧
      (∀ a, len < a → a < p - 8 → readByte t a = 0x00) ∧
      (∀ k, k < 8 → readByte t (p - 8 + k) = BitVec.ofNat 8 (8 * len / 256 ^ (7 - k))) ∧
      (∀ a, p ≤ a → readByte t a = readByte s a)

/-- 60_exceptions.md R168 and R169: PAD and DIGEST report INPUT_TOO_LARGE when MSGLEN >= 2^61 and else ALLOC_FAILURE when
P(MSGLEN) > BUF_BYTES, and change nothing but STATUS. -/
def Obligations.PadCheckErrors : Prop :=
  ∀ (s : State) (i : Instr), i = .pad ∨ i = .digest →
    (2 ^ 61 ≤ s.msglen.toNat → exec i s = .next { s with status := s.status.afterError 3 }) ∧
    (s.msglen.toNat < 2 ^ 61 → s.bufBytes < 64 * ((s.msglen.toNat + 72) / 64) →
      exec i s = .next { s with status := s.status.afterError 4 })

/-- 40_padder.md R100 (a) to (f): what a successful PAD leaves. -/
def Obligations.PaddedBufferProperties : Prop :=
  ∀ (s : State) (len : Nat), len = s.msglen.toNat → len < 2 ^ 61 → 64 * ((len + 72) / 64) ≤ s.bufBytes →
    ∃ t, exec .pad s = .next t ∧ t.status = s.status.afterSuccess ∧
      t.padlen.toNat % 64 = 0 ∧
      (len < t.padlen.toNat ∧ len + 9 ≤ t.padlen.toNat ∧ t.padlen.toNat ≤ len + 72) ∧
      memRead t (t.padlen.toNat - 8) 8 = 8 * len ∧
      readByte t len = 0x80 ∧
      (len % 64 ≤ 55 → t.padlen.toNat = 64 * (len / 64 + 1)) ∧
      (56 ≤ len % 64 → t.padlen.toNat = 64 * (len / 64 + 2)) ∧
      ∀ n, n % 64 = 0 → len + 9 ≤ n → t.padlen.toNat ≤ n

/-- 40_padder.md R101: P(L) against the reference formula, L + 64 rounded down to a multiple of 64. -/
def Obligations.PadLengthExceedsReferenceFormula : Prop :=
  ∀ len : Nat,
    (len % 64 ≤ 55 → padLength len = (len + 64) / 64 * 64) ∧
    (56 ≤ len % 64 → padLength len = (len + 64) / 64 * 64 + 64 ∧ (len + 64) / 64 * 64 < len + 9)

/-- 42_compression.md R129, the end state of COMPRESS: W is the schedule EXPAND gives, H is the old H plus the working
variables, and it is the compression of the old H and the block (computed over byte lists by `Reference.compress`). -/
def Obligations.CompressResult : Prop :=
  ∀ (s : State) (j : Nat), 64 * j + 64 ≤ s.bufBytes →
    ∃ t u, exec (.compress j) s = .next t ∧ exec (.expand j) s = .next u ∧
      t = { s with
        h := ⟨s.h.h0 + t.v.a, s.h.h1 + t.v.b, s.h.h2 + t.v.c, s.h.h3 + t.v.d, s.h.h4 + t.v.e⟩
        v := t.v
        w := u.w
        t := 81
        cmpcnt := s.cmpcnt + 1
        status := s.status.afterSuccess } ∧
      t.h = Reference.compress s.h (s.block j)

/-- 42_compression.md R129, corner case (b): COMPRESS j is EXPAND j, LOADWV, 80 ROUNDs and ACCUM. -/
def Obligations.CompressEqualsSingleSteps : Prop :=
  ∀ (s : State) (j : Nat), 64 * j + 64 ≤ s.bufBytes →
    exec (.compress j) s =
      .next (runCommands ([.expand j, .loadwv] ++ List.replicate 80 .round ++ [.accum]) s)

/-- 42_compression.md R130 (a) and (b): H, W, A..E and T after COMPRESS depend only on the old H and the bytes of the
block, whatever the rest of the state. -/
def Obligations.CompressDependsOnlyOnHashAndBlock : Prop :=
  ∀ (s s' t t' : State) (j j' : Nat), 64 * j + 64 ≤ s.bufBytes → 64 * j' + 64 ≤ s'.bufBytes →
    s.h = s'.h → s.block j = s'.block j' →
    exec (.compress j) s = .next t → exec (.compress j') s' = .next t' →
    t.h = t'.h ∧ t.w = t'.w ∧ t.v = t'.v ∧ t.t = t'.t

/-- 43_digest.md R152 and 00_scope.md R1: DIGEST leaves in H the SHA-1 digest of the message BUF[0 .. MSGLEN-1], computed
over byte lists by `Reference.sha1`, whatever the rest of the state; it succeeds when L + 9 <= BUF_BYTES. -/
def Obligations.DigestComputesSha1 : Prop :=
  ∀ s : State, s.msglen.toNat + 9 ≤ s.bufBytes →
    ∃ t, exec .digest s = .next t ∧ t.status = s.status.afterSuccess ∧ t.h = Reference.sha1 s.message

/-- 43_digest.md R152, the end state on success: PADLEN, CMPCNT = P/64 and T; BUF as PAD leaves it; nothing written but
H, A..E, W, T, PADLEN, CMPCNT, BUF and STATUS. -/
def Obligations.DigestEndState : Prop :=
  ∀ (s : State) (p : Nat), p = 64 * ((s.msglen.toNat + 72) / 64) → s.msglen.toNat < 2 ^ 61 → p ≤ s.bufBytes →
    ∃ t u, exec .digest s = .next t ∧ exec .pad s = .next u ∧
      t = { s with
        h := t.h
        v := t.v
        w := t.w
        buf := u.buf
        t := 81
        padlen := BitVec.ofNat 64 p
        cmpcnt := BitVec.ofNat 32 (p / 64)
        status := s.status.afterSuccess }

/-- 43_digest.md R152, the composition: DIGEST is INIT, PAD and then COMPRESS 0 .. P/64 - 1. -/
def Obligations.DigestEqualsInitPadCompress : Prop :=
  ∀ (s : State) (p : Nat), p = 64 * ((s.msglen.toNat + 72) / 64) → s.msglen.toNat < 2 ^ 61 → p ≤ s.bufBytes →
    exec .digest s =
      .next (runCommands ([.init, .pad] ++ (List.range (p / 64)).map (fun j => Instr.compress j)) s)

/-- 43_digest.md R152, corner case (d): a second DIGEST of an unchanged message leaves the same end state. BUF is in its
canonical form, which every step keeps (StepKeepsInvariant). -/
def Obligations.DigestTwiceGivesSameState : Prop :=
  ∀ s t : State, Memory.wf s.bufBytes s.buf = true → exec .digest s = .next t → exec .digest t = .next t

/-- 40_padder.md R99 (h) and 41_expander.md R112 (e): PAD again with the same MSGLEN, and EXPAND again of an unchanged
block, change nothing. BUF is in its canonical form, which every step keeps (StepKeepsInvariant). -/
def Obligations.PadAndExpandAreIdempotent : Prop :=
  ∀ (s t : State) (j : Nat), Memory.wf s.bufBytes s.buf = true →
    (exec .pad s = .next t → exec .pad t = .next t) ∧
    (exec (.expand j) s = .next t → exec (.expand j) t = .next t)

/-- 60_exceptions.md R171: a command that reports an error has made the completion update of STATUS and nothing else. -/
def Obligations.CommandErrorsArePrecise : Prop :=
  ∀ (i : Instr) (s t : State), exec i s = .next t → t.status.err = true →
    t = { s with status := s.status.afterError t.status.errCode }

/-- 10_state.md R22 to R30, R35: which commands may write each register and BUF; no command writes MSGLEN, nor anything
of the model's own. That none writes PENDING is the model's reading (log entry 8). -/
def Obligations.CommandsWriteOnlyTheirRegisters : Prop :=
  ∀ (i : Instr) (s t : State), exec i s = .next t →
    (t.msglen = s.msglen ∧ t.pending = s.pending ∧ t.capacity = s.capacity ∧ t.resets = s.resets ∧
      t.draws = s.draws ∧ t.script = s.script ∧ t.reads = s.reads) ∧
    (t.h ≠ s.h ∨ t.cmpcnt ≠ s.cmpcnt → i = .init ∨ i = .accum ∨ i = .digest ∨ ∃ j, i = .compress j) ∧
    (t.v ≠ s.v → i = .loadwv ∨ i = .round ∨ i = .digest ∨ ∃ j, i = .compress j) ∧
    (t.w ≠ s.w → i = .digest ∨ ∃ j, i = .expand j ∨ i = .compress j) ∧
    (t.t ≠ s.t → i = .init ∨ i = .loadwv ∨ i = .round ∨ i = .accum ∨ i = .digest ∨ ∃ j, i = .compress j) ∧
    (t.padlen ≠ s.padlen ∨ (∃ a, readByte t a ≠ readByte s a) → i = .pad ∨ i = .digest)

/-- 10_state.md R27 and 42_compression.md R127 (b): after LOADWV, n <= 80 ROUNDs succeed and leave T = n, and a ROUND after
80 of them reports SEQUENCE. -/
def Obligations.RoundsRunToEighty : Prop :=
  ∀ (s : State) (n : Nat), n ≤ 80 →
    (runCommands (.loadwv :: List.replicate n .round) s).t.toNat = n ∧
    (runCommands (.loadwv :: List.replicate n .round) s).status = s.status.afterSuccess ∧
    (n = 80 → (runCommands (.loadwv :: List.replicate n .round ++ [.round]) s).t.toNat = 80 ∧
      (runCommands (.loadwv :: List.replicate n .round ++ [.round]) s).status = s.status.afterError 5)

/-- 43_digest.md R153: CMPCNT is PADLEN / 64 after a successful DIGEST, and after INIT and any commands but INIT and
DIGEST it is the number of COMPRESS and ACCUM that succeeded, modulo 2^32. -/
def Obligations.BlockCountFollowsCommands : Prop :=
  (∀ s t : State, exec .digest s = .next t → t.status.err = false → t.cmpcnt.toNat = t.padlen.toNat / 64) ∧
  ∀ (s : State) (cs : List Instr), (∀ i ∈ cs, i ≠ .init ∧ i ≠ .digest) →
    (runCommands (.init :: cs) s).cmpcnt.toNat = successfulAccumulations (.init :: cs) s % 2 ^ 32

/-! The host. `script`, `reads` and `draws` are the model's own record of the host (log entries 1, 5, 6): a read's answer
is what the step adds to `reads`. -/

/-- 10_state.md R31: the fields of STATUS by bit, and its reserved bits. -/
def Obligations.StatusWordLayout : Prop :=
  ∀ st : Status,
    st.toWord.getLsbD 0 = st.busy ∧ st.toWord.getLsbD 1 = st.done ∧ st.toWord.getLsbD 2 = st.err ∧
    st.toWord.getLsbD 3 = st.herr ∧ st.toWord.extractLsb' 4 4 = st.errCode ∧
    st.toWord.extractLsb' 8 4 = st.herrCause ∧ st.toWord.extractLsb' 12 20 = 0

/-- 10_state.md R32: a write of STATUS, in either busy state, clears what its bits 1, 2 and 3 say and nothing else, and is
no host-access error. -/
def Obligations.StatusWriteClears : Prop :=
  ∀ (s : State) (x : Word) (rest : List Turn), s.script = .write 0x000C x :: rest →
    ∃ t, step s = .next t ∧ t = { s.afterTurn with status := t.status } ∧
      t.status.busy = s.status.busy ∧
      t.status.done = (if x.getLsbD 1 = true then false else s.status.done) ∧
      t.status.err = (if x.getLsbD 2 = true then false else s.status.err) ∧
      t.status.errCode = (if x.getLsbD 2 = true then 0 else s.status.errCode) ∧
      t.status.herr = (if x.getLsbD 3 = true then false else s.status.herr) ∧
      t.status.herrCause = (if x.getLsbD 3 = true then 0 else s.status.herrCause)

/-- 10_state.md R33: CMD reads 0 with no effect; a write while BUSY = 0 accepts any word; a write while BUSY = 1 is dropped
and is the host-access error WRITE_WHILE_BUSY. -/
def Obligations.CommandAcceptance : Prop :=
  ∀ (s : State) (x : Word) (rest : List Turn),
    (s.script = .read 0x0008 :: rest → step s = .next { s.afterTurn with reads := (0x0008, 0) :: s.reads }) ∧
    (s.script = .write 0x0008 x :: rest → s.status.busy = false →
      step s = .next { s.afterTurn with
        pending := x
        status := { s.status with busy := true, done := false, err := false, errCode := 0 } }) ∧
    (s.script = .write 0x0008 x :: rest → s.status.busy = true →
      step s = .next { s.afterTurn with status := s.status.afterHostError 3 })

/-- 20_memory.md R54: a read of BUF word k, while idle its four bytes big-endian, while busy a draw; no side effect. -/
def Obligations.BufWordRead : Prop :=
  ∀ (s : State) (k : Nat) (a : Addr) (rest : List Turn), 4 * k < s.bufBytes → a = BitVec.ofNat 16 (0x8000 + 4 * k) →
    s.script = .read a :: rest →
    (s.status.busy = false →
      step s = .next { s.afterTurn with
        reads := (a, be32 (readByte s (4 * k)) (readByte s (4 * k + 1)) (readByte s (4 * k + 2))
          (readByte s (4 * k + 3))) :: s.reads } ∧
      (be32 (readByte s (4 * k)) (readByte s (4 * k + 1)) (readByte s (4 * k + 2)) (readByte s (4 * k + 3))).toNat
        = memRead s (4 * k) 4) ∧
    (s.status.busy = true →
      step s = .next { s.afterTurn with
        draws := s.draws + 1
        reads := (a, Config.busyRead s.draws) :: s.reads })

/-- 20_memory.md R55 with the registers of 10_state.md: a read of a register returns its value and has no side effect,
while idle for every register. -/
def Obligations.RegisterReads : Prop :=
  ∀ (s : State) (a : Addr) (x : Word) (rest : List Turn), s.script = .read a :: rest → s.status.busy = false →
    (a, x) ∈ s.stableRegisters ++ s.hashRegisters ++ s.resultRegisters →
    step s = .next { s.afterTurn with reads := (a, x) :: s.reads }

/-- 20_memory.md R58: while BUSY = 1 a read of a volatile register or a BUF word answers a fresh draw, records no error
and changes nothing (the draw counter is the model's own), and a read of stable state its exact value. -/
def Obligations.BusyReads : Prop :=
  ∀ (s : State) (a : Addr) (x : Word) (rest : List Turn), s.script = .read a :: rest → s.status.busy = true →
    ((a, x) ∈ s.hashRegisters ++ s.resultRegisters ∨
        (0x8000 ≤ a.toNat ∧ a.toNat < 0x8000 + s.bufBytes ∧ a.toNat % 4 = 0) →
      step s = .next { s.afterTurn with
        draws := s.draws + 1
        reads := (a, Config.busyRead s.draws) :: s.reads }) ∧
    ((a, x) ∈ s.stableRegisters → step s = .next { s.afterTurn with reads := (a, x) :: s.reads })

/-- 20_memory.md R53: a host write of BUF word k stores big-endian and changes no other byte; while BUSY = 1 it is dropped
and is the host-access error WRITE_WHILE_BUSY. -/
def Obligations.BufWordWrite : Prop :=
  ∀ (s : State) (k : Nat) (x : Word) (rest : List Turn), 4 * k < s.bufBytes →
    s.script = .write (BitVec.ofNat 16 (0x8000 + 4 * k)) x :: rest →
    (s.status.busy = false →
      ∃ t, step s = .next t ∧ t = { s.afterTurn with buf := t.buf } ∧
        readByte t (4 * k) = x.extractLsb' 24 8 ∧ readByte t (4 * k + 1) = x.extractLsb' 16 8 ∧
        readByte t (4 * k + 2) = x.extractLsb' 8 8 ∧ readByte t (4 * k + 3) = x.extractLsb' 0 8 ∧
        ∀ a, a < 4 * k ∨ 4 * k + 4 ≤ a → readByte t a = readByte s a) ∧
    (s.status.busy = true → step s = .next { s.afterTurn with status := s.status.afterHostError 3 })

/-- 20_memory.md R57: a write at the offset of each register, idle and busy; STATUS and CMD as R32 and R33 have it. -/
def Obligations.RegisterWrites : Prop :=
  ∀ (s : State) (a : Addr) (x : Word) (rest : List Turn), s.script = .write a x :: rest →
    (a = 0x000C → step s = .next (writeStatus x s.afterTurn)) ∧
    (s.status.busy = true → a ≠ 0x000C →
      a ∈ (s.stableRegisters ++ s.hashRegisters ++ s.resultRegisters).map Prod.fst →
      step s = .next { s.afterTurn with status := s.status.afterHostError 3 }) ∧
    (s.status.busy = false →
      (a = 0x0008 → step s = .next (accept x s.afterTurn)) ∧
      (a = 0x0010 → step s = .next { s.afterTurn with msglen := s.msglen.extractLsb' 32 32 ++ x }) ∧
      (a = 0x0014 → step s = .next { s.afterTurn with msglen := x ++ s.msglen.extractLsb' 0 32 }) ∧
      (a = 0x0030 → step s = .next { s.afterTurn with h := { s.h with h0 := x } }) ∧
      (a = 0x0034 → step s = .next { s.afterTurn with h := { s.h with h1 := x } }) ∧
      (a = 0x0038 → step s = .next { s.afterTurn with h := { s.h with h2 := x } }) ∧
      (a = 0x003C → step s = .next { s.afterTurn with h := { s.h with h3 := x } }) ∧
      (a = 0x0040 → step s = .next { s.afterTurn with h := { s.h with h4 := x } }) ∧
      (a = 0x0000 ∨ a = 0x0004 ∨ a ∈ s.resultRegisters.map Prod.fst →
        step s = .next { s.afterTurn with status := s.status.afterHostError 4 }))

/-- 60_exceptions.md R173 to R175: MISALIGNED, then UNMAPPED, then WRITE_WHILE_BUSY; the access is dropped or reads 0, the
error is recorded as R174 says, and nothing else changes. -/
def Obligations.HostAccessErrors : Prop :=
  ∀ (s : State) (a : Addr) (x : Word) (rest : List Turn) (cause : BitVec 4),
    a.toNat % 4 ≠ 0 ∧ cause = 1 ∨
      a.toNat % 4 = 0 ∧ cause = 2 ∧
        (0x0028 ≤ a.toNat ∧ a.toNat < 0x0030 ∨ 0x0044 ≤ a.toNat ∧ a.toNat < 0x0050 ∨
          0x0064 ≤ a.toNat ∧ a.toNat < 0x0100 ∨ 0x0240 ≤ a.toNat ∧ a.toNat < 0x8000 ∨
          0x8000 + s.bufBytes ≤ a.toNat) →
    (s.script = .read a :: rest →
      step s = .next { s.afterTurn with
        status := s.status.afterHostError cause
        reads := (a, 0) :: s.reads }) ∧
    (s.script = .write a x :: rest → step s = .next { s.afterTurn with status := s.status.afterHostError cause })

/-- 20_memory.md R57, R58 and 60_exceptions.md R176: while BUSY = 1 no host access changes anything but STATUS, and none
clears BUSY, so a running command is not disturbed. -/
def Obligations.BusyBlocksHostAccesses : Prop :=
  ∀ (s : State) (a : Addr) (x : Word) (rest : List Turn), s.status.busy = true →
    s.script = .read a :: rest ∨ s.script = .write a x :: rest →
    ∃ t, step s = .next t ∧ t.status.busy = true ∧
      t = { s.afterTurn with status := t.status, draws := t.draws, reads := t.reads }

/-- 70_reset_and_hazards.md R196: a write of MSGLEN_LO by a host that does not wait lands when the core step comes first
and is dropped with WRITE_WHILE_BUSY when it does not. -/
def Obligations.LateWriteHasTwoOutcomes : Prop :=
  ∀ (s : State) (x : Word), s.status.busy = true →
    (∃ t, Sys2Proof.core.run 2 { s with script := [.core, .write 0x0010 x] } = .next t ∧
      t.msglen = s.msglen.extractLsb' 32 32 ++ x ∧ t.status.busy = false ∧ t.status.herr = s.status.herr ∧
      t.status.herrCause = s.status.herrCause) ∧
    (∃ t, Sys2Proof.core.run 2 { s with script := [.write 0x0010 x, .core] } = .next t ∧
      t.msglen = s.msglen ∧ t.status.busy = false ∧ t.status.herr = true ∧
      t.status.herrCause = if s.status.herr = true then s.status.herrCause else 3)

/-! Reset and the whole machine -/

/-- 70_reset_and_hazards.md R190 and R191: the reset step from any state, a running command included. BUF_BYTES, the turns
still scheduled and what the host's reads returned are no state of R190 and stay; each byte of BUF is a draw of its own,
fixed at this reset. -/
def Obligations.ResetStepLeavesResetValues : Prop :=
  ∀ (s : State) (rest : List Turn), s.script = .reset :: rest →
    ∃ t, step s = .next t ∧
      t.h = ⟨0x67452301, 0xEFCDAB89, 0x98BADCFE, 0x10325476, 0xC3D2E1F0⟩ ∧ t.v = ⟨0, 0, 0, 0, 0⟩ ∧
      (∀ (i : Nat) (h : i < 80), t.w[i] = 0) ∧ t.t = 81 ∧ t.msglen = 0 ∧ t.padlen = 0 ∧ t.cmpcnt = 0 ∧
      t.status = ⟨false, false, false, false, 0, 0⟩ ∧ t.pending = 0 ∧
      (∀ i, readByte t i = Config.bufDraw (s.resets + 1) i) ∧
      t.capacity = s.capacity ∧ t.script = rest ∧ t.reads = s.reads

/-- 70_reset_and_hazards.md R190, "Power-on is a reset": the registers of `State.reset`. -/
def Obligations.PowerOnHoldsResetValues : Prop :=
  State.reset.h = ⟨0x67452301, 0xEFCDAB89, 0x98BADCFE, 0x10325476, 0xC3D2E1F0⟩ ∧
  State.reset.v = ⟨0, 0, 0, 0, 0⟩ ∧ (∀ (i : Nat) (h : i < 80), State.reset.w[i] = 0) ∧ State.reset.t = 81 ∧
  State.reset.msglen = 0 ∧ State.reset.padlen = 0 ∧ State.reset.cmpcnt = 0 ∧ State.reset.status.toWord = 0 ∧
  State.reset.pending = 0 ∧ State.reset.bufBytes % 64 = 0 ∧ 64 ≤ State.reset.bufBytes ∧ State.reset.bufBytes ≤ 32768

/-- 70_reset_and_hazards.md R190: the reset values meet the invariant of `StepKeepsInvariant`. -/
def Obligations.ResetMeetsInvariant : Prop := State.reset.Inv

/-- Every step keeps the invariant: BUF stays in canonical form and inside its BUF_BYTES bytes, T stays 0 .. 81
(10_state.md R27), STATUS stays coherent (R31, R33, R34; 60_exceptions.md R165, R173, R174), PADLEN stays a whole number of
blocks of BUF (R29). -/
def Obligations.StepKeepsInvariant : Prop :=
  ∀ s t : State, s.Inv → step s = .next t → t.Inv

/-- 70_reset_and_hazards.md R201: every accepted command ends, by its core step or by a reset, within the turns scheduled
and one more. The bound rests on the model's schedule (log entry 1). -/
def Obligations.EveryCommandEnds : Prop :=
  ∀ s : State, s.status.busy = true →
    ∃ k t, k ≤ s.script.length + 1 ∧ Sys2Proof.core.run k s = .next t ∧ t.status.busy = false

/-- 00_scope.md R5 and 10_state.md R37: no step, a reset included, changes BUF_BYTES. -/
def Obligations.CapacityNeverChanges : Prop :=
  ∀ s t : State, step s = .next t → t.bufBytes = s.bufBytes

/-- 20_memory.md R61 and 10_state.md R35: a step that starts a command is an accepted CMD write, which puts the word in
PENDING. That PENDING changes in no other step but a reset, a completion included, is the model's reading (log entry 8). -/
def Obligations.OnlyCmdWriteStartsCommand : Prop :=
  ∀ s t : State, step s = .next t →
    (s.status.busy = false → t.status.busy = true →
      ∃ (x : Word) (rest : List Turn), s.script = .write 0x0008 x :: rest ∧ t.pending = x) ∧
    (t.pending ≠ s.pending →
      (∃ (x : Word) (rest : List Turn), s.status.busy = false ∧ s.script = .write 0x0008 x :: rest ∧ t.pending = x) ∨
      ∃ rest : List Turn, s.script = .reset :: rest ∧ t.pending = 0)
end

