-- ==== Sys2Proof/Laws/State.lean ====
section
/-! SUPPORT. One lemma per field of State for every operation that updates it: what it leaves alone, and what it writes. -/

namespace Sys2Proof.Machine

/-- Recording a host-access error, field by field (60_exceptions.md R174). -/
theorem recordHostError_eq (cause : BitVec 4) (st : Status) : st.recordHostError cause = st.afterHostError cause := by
  obtain ⟨_, _, _, herr, _, _⟩ := st; cases herr <;> rfl

/-! complete -/

@[simp] theorem complete_h (c : BitVec 4) (s : State) : (complete c s).h = s.h := (rfl)
@[simp] theorem complete_v (c : BitVec 4) (s : State) : (complete c s).v = s.v := (rfl)
@[simp] theorem complete_w (c : BitVec 4) (s : State) : (complete c s).w = s.w := (rfl)
@[simp] theorem complete_t (c : BitVec 4) (s : State) : (complete c s).t = s.t := (rfl)
@[simp] theorem complete_msglen (c : BitVec 4) (s : State) : (complete c s).msglen = s.msglen := (rfl)
@[simp] theorem complete_padlen (c : BitVec 4) (s : State) : (complete c s).padlen = s.padlen := (rfl)
@[simp] theorem complete_cmpcnt (c : BitVec 4) (s : State) : (complete c s).cmpcnt = s.cmpcnt := (rfl)
@[simp] theorem complete_status (c : BitVec 4) (s : State) : (complete c s).status = s.status.completed c := (rfl)
@[simp] theorem complete_pending (c : BitVec 4) (s : State) : (complete c s).pending = s.pending := (rfl)
@[simp] theorem complete_buf (c : BitVec 4) (s : State) : (complete c s).buf = s.buf := (rfl)
@[simp] theorem complete_capacity (c : BitVec 4) (s : State) : (complete c s).capacity = s.capacity := (rfl)
@[simp] theorem complete_resets (c : BitVec 4) (s : State) : (complete c s).resets = s.resets := (rfl)
@[simp] theorem complete_draws (c : BitVec 4) (s : State) : (complete c s).draws = s.draws := (rfl)
@[simp] theorem complete_script (c : BitVec 4) (s : State) : (complete c s).script = s.script := (rfl)
@[simp] theorem complete_reads (c : BitVec 4) (s : State) : (complete c s).reads = s.reads := (rfl)
@[simp] theorem complete_bufBytes (c : BitVec 4) (s : State) : (complete c s).bufBytes = s.bufBytes := (rfl)

/-! succeed -/

@[simp] theorem succeed_h (s : State) : (succeed s).h = s.h := (rfl)
@[simp] theorem succeed_v (s : State) : (succeed s).v = s.v := (rfl)
@[simp] theorem succeed_w (s : State) : (succeed s).w = s.w := (rfl)
@[simp] theorem succeed_t (s : State) : (succeed s).t = s.t := (rfl)
@[simp] theorem succeed_msglen (s : State) : (succeed s).msglen = s.msglen := (rfl)
@[simp] theorem succeed_padlen (s : State) : (succeed s).padlen = s.padlen := (rfl)
@[simp] theorem succeed_cmpcnt (s : State) : (succeed s).cmpcnt = s.cmpcnt := (rfl)
@[simp] theorem succeed_status (s : State) : (succeed s).status = s.status.afterSuccess := (rfl)
@[simp] theorem succeed_pending (s : State) : (succeed s).pending = s.pending := (rfl)
@[simp] theorem succeed_buf (s : State) : (succeed s).buf = s.buf := (rfl)
@[simp] theorem succeed_capacity (s : State) : (succeed s).capacity = s.capacity := (rfl)
@[simp] theorem succeed_resets (s : State) : (succeed s).resets = s.resets := (rfl)
@[simp] theorem succeed_draws (s : State) : (succeed s).draws = s.draws := (rfl)
@[simp] theorem succeed_script (s : State) : (succeed s).script = s.script := (rfl)
@[simp] theorem succeed_reads (s : State) : (succeed s).reads = s.reads := (rfl)
@[simp] theorem succeed_bufBytes (s : State) : (succeed s).bufBytes = s.bufBytes := (rfl)

/-! raiseCmdError -/

@[simp] theorem raiseCmdError_h (e : CmdError) (s : State) : (raiseCmdError e s).h = s.h := (rfl)
@[simp] theorem raiseCmdError_v (e : CmdError) (s : State) : (raiseCmdError e s).v = s.v := (rfl)
@[simp] theorem raiseCmdError_w (e : CmdError) (s : State) : (raiseCmdError e s).w = s.w := (rfl)
@[simp] theorem raiseCmdError_t (e : CmdError) (s : State) : (raiseCmdError e s).t = s.t := (rfl)
@[simp] theorem raiseCmdError_msglen (e : CmdError) (s : State) : (raiseCmdError e s).msglen = s.msglen := (rfl)
@[simp] theorem raiseCmdError_padlen (e : CmdError) (s : State) : (raiseCmdError e s).padlen = s.padlen := (rfl)
@[simp] theorem raiseCmdError_cmpcnt (e : CmdError) (s : State) : (raiseCmdError e s).cmpcnt = s.cmpcnt := (rfl)
@[simp] theorem raiseCmdError_status (e : CmdError) (s : State) : (raiseCmdError e s).status = s.status.afterError e.code := by
  cases e <;> rfl
@[simp] theorem raiseCmdError_pending (e : CmdError) (s : State) : (raiseCmdError e s).pending = s.pending := (rfl)
@[simp] theorem raiseCmdError_buf (e : CmdError) (s : State) : (raiseCmdError e s).buf = s.buf := (rfl)
@[simp] theorem raiseCmdError_capacity (e : CmdError) (s : State) : (raiseCmdError e s).capacity = s.capacity := (rfl)
@[simp] theorem raiseCmdError_resets (e : CmdError) (s : State) : (raiseCmdError e s).resets = s.resets := (rfl)
@[simp] theorem raiseCmdError_draws (e : CmdError) (s : State) : (raiseCmdError e s).draws = s.draws := (rfl)
@[simp] theorem raiseCmdError_script (e : CmdError) (s : State) : (raiseCmdError e s).script = s.script := (rfl)
@[simp] theorem raiseCmdError_reads (e : CmdError) (s : State) : (raiseCmdError e s).reads = s.reads := (rfl)
@[simp] theorem raiseCmdError_bufBytes (e : CmdError) (s : State) : (raiseCmdError e s).bufBytes = s.bufBytes := (rfl)

/-! takeHostError -/

@[simp] theorem takeHostError_h (e : HostError) (s : State) : (takeHostError e s).h = s.h := (rfl)
@[simp] theorem takeHostError_v (e : HostError) (s : State) : (takeHostError e s).v = s.v := (rfl)
@[simp] theorem takeHostError_w (e : HostError) (s : State) : (takeHostError e s).w = s.w := (rfl)
@[simp] theorem takeHostError_t (e : HostError) (s : State) : (takeHostError e s).t = s.t := (rfl)
@[simp] theorem takeHostError_msglen (e : HostError) (s : State) : (takeHostError e s).msglen = s.msglen := (rfl)
@[simp] theorem takeHostError_padlen (e : HostError) (s : State) : (takeHostError e s).padlen = s.padlen := (rfl)
@[simp] theorem takeHostError_cmpcnt (e : HostError) (s : State) : (takeHostError e s).cmpcnt = s.cmpcnt := (rfl)
@[simp] theorem takeHostError_status (e : HostError) (s : State) : (takeHostError e s).status = s.status.afterHostError e.cause := by
  exact recordHostError_eq _ _
@[simp] theorem takeHostError_pending (e : HostError) (s : State) : (takeHostError e s).pending = s.pending := (rfl)
@[simp] theorem takeHostError_buf (e : HostError) (s : State) : (takeHostError e s).buf = s.buf := (rfl)
@[simp] theorem takeHostError_capacity (e : HostError) (s : State) : (takeHostError e s).capacity = s.capacity := (rfl)
@[simp] theorem takeHostError_resets (e : HostError) (s : State) : (takeHostError e s).resets = s.resets := (rfl)
@[simp] theorem takeHostError_draws (e : HostError) (s : State) : (takeHostError e s).draws = s.draws := (rfl)
@[simp] theorem takeHostError_script (e : HostError) (s : State) : (takeHostError e s).script = s.script := (rfl)
@[simp] theorem takeHostError_reads (e : HostError) (s : State) : (takeHostError e s).reads = s.reads := (rfl)
@[simp] theorem takeHostError_bufBytes (e : HostError) (s : State) : (takeHostError e s).bufBytes = s.bufBytes := (rfl)

/-! writeStatus -/

@[simp] theorem writeStatus_h (x : Word) (s : State) : (writeStatus x s).h = s.h := (rfl)
@[simp] theorem writeStatus_v (x : Word) (s : State) : (writeStatus x s).v = s.v := (rfl)
@[simp] theorem writeStatus_w (x : Word) (s : State) : (writeStatus x s).w = s.w := (rfl)
@[simp] theorem writeStatus_t (x : Word) (s : State) : (writeStatus x s).t = s.t := (rfl)
@[simp] theorem writeStatus_msglen (x : Word) (s : State) : (writeStatus x s).msglen = s.msglen := (rfl)
@[simp] theorem writeStatus_padlen (x : Word) (s : State) : (writeStatus x s).padlen = s.padlen := (rfl)
@[simp] theorem writeStatus_cmpcnt (x : Word) (s : State) : (writeStatus x s).cmpcnt = s.cmpcnt := (rfl)
@[simp] theorem writeStatus_status (x : Word) (s : State) : (writeStatus x s).status = s.status.clearedBy x := (rfl)
@[simp] theorem writeStatus_pending (x : Word) (s : State) : (writeStatus x s).pending = s.pending := (rfl)
@[simp] theorem writeStatus_buf (x : Word) (s : State) : (writeStatus x s).buf = s.buf := (rfl)
@[simp] theorem writeStatus_capacity (x : Word) (s : State) : (writeStatus x s).capacity = s.capacity := (rfl)
@[simp] theorem writeStatus_resets (x : Word) (s : State) : (writeStatus x s).resets = s.resets := (rfl)
@[simp] theorem writeStatus_draws (x : Word) (s : State) : (writeStatus x s).draws = s.draws := (rfl)
@[simp] theorem writeStatus_script (x : Word) (s : State) : (writeStatus x s).script = s.script := (rfl)
@[simp] theorem writeStatus_reads (x : Word) (s : State) : (writeStatus x s).reads = s.reads := (rfl)
@[simp] theorem writeStatus_bufBytes (x : Word) (s : State) : (writeStatus x s).bufBytes = s.bufBytes := (rfl)

/-! accept -/

@[simp] theorem accept_h (x : Word) (s : State) : (accept x s).h = s.h := (rfl)
@[simp] theorem accept_v (x : Word) (s : State) : (accept x s).v = s.v := (rfl)
@[simp] theorem accept_w (x : Word) (s : State) : (accept x s).w = s.w := (rfl)
@[simp] theorem accept_t (x : Word) (s : State) : (accept x s).t = s.t := (rfl)
@[simp] theorem accept_msglen (x : Word) (s : State) : (accept x s).msglen = s.msglen := (rfl)
@[simp] theorem accept_padlen (x : Word) (s : State) : (accept x s).padlen = s.padlen := (rfl)
@[simp] theorem accept_cmpcnt (x : Word) (s : State) : (accept x s).cmpcnt = s.cmpcnt := (rfl)
@[simp] theorem accept_status (x : Word) (s : State) : (accept x s).status = s.status.accepted := (rfl)
@[simp] theorem accept_pending (x : Word) (s : State) : (accept x s).pending = x := (rfl)
@[simp] theorem accept_buf (x : Word) (s : State) : (accept x s).buf = s.buf := (rfl)
@[simp] theorem accept_capacity (x : Word) (s : State) : (accept x s).capacity = s.capacity := (rfl)
@[simp] theorem accept_resets (x : Word) (s : State) : (accept x s).resets = s.resets := (rfl)
@[simp] theorem accept_draws (x : Word) (s : State) : (accept x s).draws = s.draws := (rfl)
@[simp] theorem accept_script (x : Word) (s : State) : (accept x s).script = s.script := (rfl)
@[simp] theorem accept_reads (x : Word) (s : State) : (accept x s).reads = s.reads := (rfl)
@[simp] theorem accept_bufBytes (x : Word) (s : State) : (accept x s).bufBytes = s.bufBytes := (rfl)

/-! padBody -/

@[simp] theorem padBody_h (s : State) : (padBody s).h = s.h := (rfl)
@[simp] theorem padBody_v (s : State) : (padBody s).v = s.v := (rfl)
@[simp] theorem padBody_w (s : State) : (padBody s).w = s.w := (rfl)
@[simp] theorem padBody_t (s : State) : (padBody s).t = s.t := (rfl)
@[simp] theorem padBody_msglen (s : State) : (padBody s).msglen = s.msglen := (rfl)
@[simp] theorem padBody_padlen (s : State) : (padBody s).padlen = BitVec.ofNat 64 (padLength s.msglen.toNat) := (rfl)
@[simp] theorem padBody_cmpcnt (s : State) : (padBody s).cmpcnt = s.cmpcnt := (rfl)
@[simp] theorem padBody_status (s : State) : (padBody s).status = s.status := (rfl)
@[simp] theorem padBody_pending (s : State) : (padBody s).pending = s.pending := (rfl)
@[simp] theorem padBody_buf (s : State) : (padBody s).buf = padMemory s.msglen.toNat s.buf := (rfl)
@[simp] theorem padBody_capacity (s : State) : (padBody s).capacity = s.capacity := (rfl)
@[simp] theorem padBody_resets (s : State) : (padBody s).resets = s.resets := (rfl)
@[simp] theorem padBody_draws (s : State) : (padBody s).draws = s.draws := (rfl)
@[simp] theorem padBody_script (s : State) : (padBody s).script = s.script := (rfl)
@[simp] theorem padBody_reads (s : State) : (padBody s).reads = s.reads := (rfl)
@[simp] theorem padBody_bufBytes (s : State) : (padBody s).bufBytes = s.bufBytes := (rfl)

/-! expandBody -/

@[simp] theorem expandBody_h (j : Nat) (s : State) : (expandBody j s).h = s.h := (rfl)
@[simp] theorem expandBody_v (j : Nat) (s : State) : (expandBody j s).v = s.v := (rfl)
@[simp] theorem expandBody_w (j : Nat) (s : State) : (expandBody j s).w = schedule j s := (rfl)
@[simp] theorem expandBody_t (j : Nat) (s : State) : (expandBody j s).t = s.t := (rfl)
@[simp] theorem expandBody_msglen (j : Nat) (s : State) : (expandBody j s).msglen = s.msglen := (rfl)
@[simp] theorem expandBody_padlen (j : Nat) (s : State) : (expandBody j s).padlen = s.padlen := (rfl)
@[simp] theorem expandBody_cmpcnt (j : Nat) (s : State) : (expandBody j s).cmpcnt = s.cmpcnt := (rfl)
@[simp] theorem expandBody_status (j : Nat) (s : State) : (expandBody j s).status = s.status := (rfl)
@[simp] theorem expandBody_pending (j : Nat) (s : State) : (expandBody j s).pending = s.pending := (rfl)
@[simp] theorem expandBody_buf (j : Nat) (s : State) : (expandBody j s).buf = s.buf := (rfl)
@[simp] theorem expandBody_capacity (j : Nat) (s : State) : (expandBody j s).capacity = s.capacity := (rfl)
@[simp] theorem expandBody_resets (j : Nat) (s : State) : (expandBody j s).resets = s.resets := (rfl)
@[simp] theorem expandBody_draws (j : Nat) (s : State) : (expandBody j s).draws = s.draws := (rfl)
@[simp] theorem expandBody_script (j : Nat) (s : State) : (expandBody j s).script = s.script := (rfl)
@[simp] theorem expandBody_reads (j : Nat) (s : State) : (expandBody j s).reads = s.reads := (rfl)
@[simp] theorem expandBody_bufBytes (j : Nat) (s : State) : (expandBody j s).bufBytes = s.bufBytes := (rfl)

/-! loadBody -/

@[simp] theorem loadBody_h (s : State) : (loadBody s).h = s.h := (rfl)
@[simp] theorem loadBody_v (s : State) : (loadBody s).v = ⟨s.h.h0, s.h.h1, s.h.h2, s.h.h3, s.h.h4⟩ := (rfl)
@[simp] theorem loadBody_w (s : State) : (loadBody s).w = s.w := (rfl)
@[simp] theorem loadBody_t (s : State) : (loadBody s).t = 0 := (rfl)
@[simp] theorem loadBody_msglen (s : State) : (loadBody s).msglen = s.msglen := (rfl)
@[simp] theorem loadBody_padlen (s : State) : (loadBody s).padlen = s.padlen := (rfl)
@[simp] theorem loadBody_cmpcnt (s : State) : (loadBody s).cmpcnt = s.cmpcnt := (rfl)
@[simp] theorem loadBody_status (s : State) : (loadBody s).status = s.status := (rfl)
@[simp] theorem loadBody_pending (s : State) : (loadBody s).pending = s.pending := (rfl)
@[simp] theorem loadBody_buf (s : State) : (loadBody s).buf = s.buf := (rfl)
@[simp] theorem loadBody_capacity (s : State) : (loadBody s).capacity = s.capacity := (rfl)
@[simp] theorem loadBody_resets (s : State) : (loadBody s).resets = s.resets := (rfl)
@[simp] theorem loadBody_draws (s : State) : (loadBody s).draws = s.draws := (rfl)
@[simp] theorem loadBody_script (s : State) : (loadBody s).script = s.script := (rfl)
@[simp] theorem loadBody_reads (s : State) : (loadBody s).reads = s.reads := (rfl)
@[simp] theorem loadBody_bufBytes (s : State) : (loadBody s).bufBytes = s.bufBytes := (rfl)

/-! accumBody -/

@[simp] theorem accumBody_h (s : State) : (accumBody s).h = accumHash s.h s.v := (rfl)
@[simp] theorem accumBody_v (s : State) : (accumBody s).v = s.v := (rfl)
@[simp] theorem accumBody_w (s : State) : (accumBody s).w = s.w := (rfl)
@[simp] theorem accumBody_t (s : State) : (accumBody s).t = Const.noBlock := (rfl)
@[simp] theorem accumBody_msglen (s : State) : (accumBody s).msglen = s.msglen := (rfl)
@[simp] theorem accumBody_padlen (s : State) : (accumBody s).padlen = s.padlen := (rfl)
@[simp] theorem accumBody_cmpcnt (s : State) : (accumBody s).cmpcnt = s.cmpcnt + 1 := (rfl)
@[simp] theorem accumBody_status (s : State) : (accumBody s).status = s.status := (rfl)
@[simp] theorem accumBody_pending (s : State) : (accumBody s).pending = s.pending := (rfl)
@[simp] theorem accumBody_buf (s : State) : (accumBody s).buf = s.buf := (rfl)
@[simp] theorem accumBody_capacity (s : State) : (accumBody s).capacity = s.capacity := (rfl)
@[simp] theorem accumBody_resets (s : State) : (accumBody s).resets = s.resets := (rfl)
@[simp] theorem accumBody_draws (s : State) : (accumBody s).draws = s.draws := (rfl)
@[simp] theorem accumBody_script (s : State) : (accumBody s).script = s.script := (rfl)
@[simp] theorem accumBody_reads (s : State) : (accumBody s).reads = s.reads := (rfl)
@[simp] theorem accumBody_bufBytes (s : State) : (accumBody s).bufBytes = s.bufBytes := (rfl)

/-! initBody -/

@[simp] theorem initBody_h (s : State) : (initBody s).h = initialHash := (rfl)
@[simp] theorem initBody_v (s : State) : (initBody s).v = s.v := (rfl)
@[simp] theorem initBody_w (s : State) : (initBody s).w = s.w := (rfl)
@[simp] theorem initBody_t (s : State) : (initBody s).t = Const.noBlock := (rfl)
@[simp] theorem initBody_msglen (s : State) : (initBody s).msglen = s.msglen := (rfl)
@[simp] theorem initBody_padlen (s : State) : (initBody s).padlen = s.padlen := (rfl)
@[simp] theorem initBody_cmpcnt (s : State) : (initBody s).cmpcnt = 0 := (rfl)
@[simp] theorem initBody_status (s : State) : (initBody s).status = s.status := (rfl)
@[simp] theorem initBody_pending (s : State) : (initBody s).pending = s.pending := (rfl)
@[simp] theorem initBody_buf (s : State) : (initBody s).buf = s.buf := (rfl)
@[simp] theorem initBody_capacity (s : State) : (initBody s).capacity = s.capacity := (rfl)
@[simp] theorem initBody_resets (s : State) : (initBody s).resets = s.resets := (rfl)
@[simp] theorem initBody_draws (s : State) : (initBody s).draws = s.draws := (rfl)
@[simp] theorem initBody_script (s : State) : (initBody s).script = s.script := (rfl)
@[simp] theorem initBody_reads (s : State) : (initBody s).reads = s.reads := (rfl)
@[simp] theorem initBody_bufBytes (s : State) : (initBody s).bufBytes = s.bufBytes := (rfl)

/-! resetStep -/

@[simp] theorem resetStep_h (s : State) : (resetStep s).h = initialHash := (rfl)
@[simp] theorem resetStep_v (s : State) : (resetStep s).v = ⟨0, 0, 0, 0, 0⟩ := (rfl)
@[simp] theorem resetStep_w (s : State) : (resetStep s).w = Vector.replicate 80 0 := (rfl)
@[simp] theorem resetStep_t (s : State) : (resetStep s).t = Const.noBlock := (rfl)
@[simp] theorem resetStep_msglen (s : State) : (resetStep s).msglen = 0 := (rfl)
@[simp] theorem resetStep_padlen (s : State) : (resetStep s).padlen = 0 := (rfl)
@[simp] theorem resetStep_cmpcnt (s : State) : (resetStep s).cmpcnt = 0 := (rfl)
@[simp] theorem resetStep_status (s : State) : (resetStep s).status = ⟨false, false, false, false, 0, 0⟩ := (rfl)
@[simp] theorem resetStep_pending (s : State) : (resetStep s).pending = 0 := (rfl)
@[simp] theorem resetStep_buf (s : State) : (resetStep s).buf = [] := (rfl)
@[simp] theorem resetStep_capacity (s : State) : (resetStep s).capacity = s.capacity := (rfl)
@[simp] theorem resetStep_resets (s : State) : (resetStep s).resets = s.resets + 1 := (rfl)
@[simp] theorem resetStep_draws (s : State) : (resetStep s).draws = s.draws := (rfl)
@[simp] theorem resetStep_script (s : State) : (resetStep s).script = s.script := (rfl)
@[simp] theorem resetStep_reads (s : State) : (resetStep s).reads = s.reads := (rfl)
@[simp] theorem resetStep_bufBytes (s : State) : (resetStep s).bufBytes = s.bufBytes := (rfl)

/-! afterTurn -/

@[simp] theorem afterTurn_h (s : State) : s.afterTurn.h = s.h := (rfl)
@[simp] theorem afterTurn_v (s : State) : s.afterTurn.v = s.v := (rfl)
@[simp] theorem afterTurn_w (s : State) : s.afterTurn.w = s.w := (rfl)
@[simp] theorem afterTurn_t (s : State) : s.afterTurn.t = s.t := (rfl)
@[simp] theorem afterTurn_msglen (s : State) : s.afterTurn.msglen = s.msglen := (rfl)
@[simp] theorem afterTurn_padlen (s : State) : s.afterTurn.padlen = s.padlen := (rfl)
@[simp] theorem afterTurn_cmpcnt (s : State) : s.afterTurn.cmpcnt = s.cmpcnt := (rfl)
@[simp] theorem afterTurn_status (s : State) : s.afterTurn.status = s.status := (rfl)
@[simp] theorem afterTurn_pending (s : State) : s.afterTurn.pending = s.pending := (rfl)
@[simp] theorem afterTurn_buf (s : State) : s.afterTurn.buf = s.buf := (rfl)
@[simp] theorem afterTurn_capacity (s : State) : s.afterTurn.capacity = s.capacity := (rfl)
@[simp] theorem afterTurn_resets (s : State) : s.afterTurn.resets = s.resets := (rfl)
@[simp] theorem afterTurn_draws (s : State) : s.afterTurn.draws = s.draws := (rfl)
@[simp] theorem afterTurn_script (s : State) : s.afterTurn.script = s.script.tail := (rfl)
@[simp] theorem afterTurn_reads (s : State) : s.afterTurn.reads = s.reads := (rfl)
@[simp] theorem afterTurn_bufBytes (s : State) : s.afterTurn.bufBytes = s.bufBytes := (rfl)

/-! The ways a command or an access ends, as one record update each. -/

theorem succeed_eq (s : State) : succeed s = { s with status := s.status.afterSuccess } := (rfl)

theorem raiseCmdError_eq (e : CmdError) (s : State) :
    raiseCmdError e s = { s with status := s.status.afterError e.code } := by cases e <;> rfl

theorem takeHostError_eq (e : HostError) (s : State) :
    takeHostError e s = { s with status := s.status.afterHostError e.cause } := by
  rw [takeHostError, recordHostError_eq]

/-! roundBody and rounds: everything but A..E and T stays. `allRounds` and `schedule` do not unfold by themselves (80
rounds written out are large): `allRounds_eq` and `schedule_eq` are their equations. -/

theorem allRounds_eq (s : State) : allRounds s = rounds 80 s := by unfold allRounds; rfl

theorem schedule_eq (j : Nat) (s : State) : schedule j s = extendWords 64 (loadWords s j 16 s.w) := by
  unfold schedule; rfl

@[simp] theorem roundBody_h (s : State) : (roundBody s).h = s.h := by
  unfold roundBody; split <;> rfl
@[simp] theorem rounds_h (n : Nat) (s : State) : (rounds n s).h = s.h := by
  induction n with
  | zero => rfl
  | succ n ih => rw [rounds, roundBody_h, ih]
@[simp] theorem allRounds_h (s : State) : (allRounds s).h = s.h := by
  rw [allRounds_eq, rounds_h]
@[simp] theorem roundBody_w (s : State) : (roundBody s).w = s.w := by
  unfold roundBody; split <;> rfl
@[simp] theorem rounds_w (n : Nat) (s : State) : (rounds n s).w = s.w := by
  induction n with
  | zero => rfl
  | succ n ih => rw [rounds, roundBody_w, ih]
@[simp] theorem allRounds_w (s : State) : (allRounds s).w = s.w := by
  rw [allRounds_eq, rounds_w]
@[simp] theorem roundBody_msglen (s : State) : (roundBody s).msglen = s.msglen := by
  unfold roundBody; split <;> rfl
@[simp] theorem rounds_msglen (n : Nat) (s : State) : (rounds n s).msglen = s.msglen := by
  induction n with
  | zero => rfl
  | succ n ih => rw [rounds, roundBody_msglen, ih]
@[simp] theorem allRounds_msglen (s : State) : (allRounds s).msglen = s.msglen := by
  rw [allRounds_eq, rounds_msglen]
@[simp] theorem roundBody_padlen (s : State) : (roundBody s).padlen = s.padlen := by
  unfold roundBody; split <;> rfl
@[simp] theorem rounds_padlen (n : Nat) (s : State) : (rounds n s).padlen = s.padlen := by
  induction n with
  | zero => rfl
  | succ n ih => rw [rounds, roundBody_padlen, ih]
@[simp] theorem allRounds_padlen (s : State) : (allRounds s).padlen = s.padlen := by
  rw [allRounds_eq, rounds_padlen]
@[simp] theorem roundBody_cmpcnt (s : State) : (roundBody s).cmpcnt = s.cmpcnt := by
  unfold roundBody; split <;> rfl
@[simp] theorem rounds_cmpcnt (n : Nat) (s : State) : (rounds n s).cmpcnt = s.cmpcnt := by
  induction n with
  | zero => rfl
  | succ n ih => rw [rounds, roundBody_cmpcnt, ih]
@[simp] theorem allRounds_cmpcnt (s : State) : (allRounds s).cmpcnt = s.cmpcnt := by
  rw [allRounds_eq, rounds_cmpcnt]
@[simp] theorem roundBody_status (s : State) : (roundBody s).status = s.status := by
  unfold roundBody; split <;> rfl
@[simp] theorem rounds_status (n : Nat) (s : State) : (rounds n s).status = s.status := by
  induction n with
  | zero => rfl
  | succ n ih => rw [rounds, roundBody_status, ih]
@[simp] theorem allRounds_status (s : State) : (allRounds s).status = s.status := by
  rw [allRounds_eq, rounds_status]
@[simp] theorem roundBody_pending (s : State) : (roundBody s).pending = s.pending := by
  unfold roundBody; split <;> rfl
@[simp] theorem rounds_pending (n : Nat) (s : State) : (rounds n s).pending = s.pending := by
  induction n with
  | zero => rfl
  | succ n ih => rw [rounds, roundBody_pending, ih]
@[simp] theorem allRounds_pending (s : State) : (allRounds s).pending = s.pending := by
  rw [allRounds_eq, rounds_pending]
@[simp] theorem roundBody_buf (s : State) : (roundBody s).buf = s.buf := by
  unfold roundBody; split <;> rfl
@[simp] theorem rounds_buf (n : Nat) (s : State) : (rounds n s).buf = s.buf := by
  induction n with
  | zero => rfl
  | succ n ih => rw [rounds, roundBody_buf, ih]
@[simp] theorem allRounds_buf (s : State) : (allRounds s).buf = s.buf := by
  rw [allRounds_eq, rounds_buf]
@[simp] theorem roundBody_capacity (s : State) : (roundBody s).capacity = s.capacity := by
  unfold roundBody; split <;> rfl
@[simp] theorem rounds_capacity (n : Nat) (s : State) : (rounds n s).capacity = s.capacity := by
  induction n with
  | zero => rfl
  | succ n ih => rw [rounds, roundBody_capacity, ih]
@[simp] theorem allRounds_capacity (s : State) : (allRounds s).capacity = s.capacity := by
  rw [allRounds_eq, rounds_capacity]
@[simp] theorem roundBody_resets (s : State) : (roundBody s).resets = s.resets := by
  unfold roundBody; split <;> rfl
@[simp] theorem rounds_resets (n : Nat) (s : State) : (rounds n s).resets = s.resets := by
  induction n with
  | zero => rfl
  | succ n ih => rw [rounds, roundBody_resets, ih]
@[simp] theorem allRounds_resets (s : State) : (allRounds s).resets = s.resets := by
  rw [allRounds_eq, rounds_resets]
@[simp] theorem roundBody_draws (s : State) : (roundBody s).draws = s.draws := by
  unfold roundBody; split <;> rfl
@[simp] theorem rounds_draws (n : Nat) (s : State) : (rounds n s).draws = s.draws := by
  induction n with
  | zero => rfl
  | succ n ih => rw [rounds, roundBody_draws, ih]
@[simp] theorem allRounds_draws (s : State) : (allRounds s).draws = s.draws := by
  rw [allRounds_eq, rounds_draws]
@[simp] theorem roundBody_script (s : State) : (roundBody s).script = s.script := by
  unfold roundBody; split <;> rfl
@[simp] theorem rounds_script (n : Nat) (s : State) : (rounds n s).script = s.script := by
  induction n with
  | zero => rfl
  | succ n ih => rw [rounds, roundBody_script, ih]
@[simp] theorem allRounds_script (s : State) : (allRounds s).script = s.script := by
  rw [allRounds_eq, rounds_script]
@[simp] theorem roundBody_reads (s : State) : (roundBody s).reads = s.reads := by
  unfold roundBody; split <;> rfl
@[simp] theorem rounds_reads (n : Nat) (s : State) : (rounds n s).reads = s.reads := by
  induction n with
  | zero => rfl
  | succ n ih => rw [rounds, roundBody_reads, ih]
@[simp] theorem allRounds_reads (s : State) : (allRounds s).reads = s.reads := by
  rw [allRounds_eq, rounds_reads]
@[simp] theorem roundBody_bufBytes (s : State) : (roundBody s).bufBytes = s.bufBytes := by
  unfold roundBody; split <;> rfl
@[simp] theorem rounds_bufBytes (n : Nat) (s : State) : (rounds n s).bufBytes = s.bufBytes := by
  induction n with
  | zero => rfl
  | succ n ih => rw [rounds, roundBody_bufBytes, ih]
@[simp] theorem allRounds_bufBytes (s : State) : (allRounds s).bufBytes = s.bufBytes := by
  rw [allRounds_eq, rounds_bufBytes]

/-! compressBody: what COMPRESS and a turn of DIGEST's loop leave alone. -/

@[simp] theorem compressBody_msglen (j : Nat) (s : State) : (compressBody j s).msglen = s.msglen := by
  rw [compressBody]; simp
@[simp] theorem compressBody_padlen (j : Nat) (s : State) : (compressBody j s).padlen = s.padlen := by
  rw [compressBody]; simp
@[simp] theorem compressBody_status (j : Nat) (s : State) : (compressBody j s).status = s.status := by
  rw [compressBody]; simp
@[simp] theorem compressBody_pending (j : Nat) (s : State) : (compressBody j s).pending = s.pending := by
  rw [compressBody]; simp
@[simp] theorem compressBody_buf (j : Nat) (s : State) : (compressBody j s).buf = s.buf := by
  rw [compressBody]; simp
@[simp] theorem compressBody_capacity (j : Nat) (s : State) : (compressBody j s).capacity = s.capacity := by
  rw [compressBody]; simp
@[simp] theorem compressBody_resets (j : Nat) (s : State) : (compressBody j s).resets = s.resets := by
  rw [compressBody]; simp
@[simp] theorem compressBody_draws (j : Nat) (s : State) : (compressBody j s).draws = s.draws := by
  rw [compressBody]; simp
@[simp] theorem compressBody_script (j : Nat) (s : State) : (compressBody j s).script = s.script := by
  rw [compressBody]; simp
@[simp] theorem compressBody_reads (j : Nat) (s : State) : (compressBody j s).reads = s.reads := by
  rw [compressBody]; simp
@[simp] theorem compressBody_bufBytes (j : Nat) (s : State) : (compressBody j s).bufBytes = s.bufBytes := by
  rw [compressBody]; simp

/-! digestBlocks: the same for any number of turns. -/

@[simp] theorem digestBlocks_msglen (n : Nat) (s : State) : (digestBlocks n s).msglen = s.msglen := by
  induction n with
  | zero => rfl
  | succ n ih => rw [digestBlocks, compressBody_msglen, ih]
@[simp] theorem digestBlocks_padlen (n : Nat) (s : State) : (digestBlocks n s).padlen = s.padlen := by
  induction n with
  | zero => rfl
  | succ n ih => rw [digestBlocks, compressBody_padlen, ih]
@[simp] theorem digestBlocks_status (n : Nat) (s : State) : (digestBlocks n s).status = s.status := by
  induction n with
  | zero => rfl
  | succ n ih => rw [digestBlocks, compressBody_status, ih]
@[simp] theorem digestBlocks_pending (n : Nat) (s : State) : (digestBlocks n s).pending = s.pending := by
  induction n with
  | zero => rfl
  | succ n ih => rw [digestBlocks, compressBody_pending, ih]
@[simp] theorem digestBlocks_buf (n : Nat) (s : State) : (digestBlocks n s).buf = s.buf := by
  induction n with
  | zero => rfl
  | succ n ih => rw [digestBlocks, compressBody_buf, ih]
@[simp] theorem digestBlocks_capacity (n : Nat) (s : State) : (digestBlocks n s).capacity = s.capacity := by
  induction n with
  | zero => rfl
  | succ n ih => rw [digestBlocks, compressBody_capacity, ih]
@[simp] theorem digestBlocks_resets (n : Nat) (s : State) : (digestBlocks n s).resets = s.resets := by
  induction n with
  | zero => rfl
  | succ n ih => rw [digestBlocks, compressBody_resets, ih]
@[simp] theorem digestBlocks_draws (n : Nat) (s : State) : (digestBlocks n s).draws = s.draws := by
  induction n with
  | zero => rfl
  | succ n ih => rw [digestBlocks, compressBody_draws, ih]
@[simp] theorem digestBlocks_script (n : Nat) (s : State) : (digestBlocks n s).script = s.script := by
  induction n with
  | zero => rfl
  | succ n ih => rw [digestBlocks, compressBody_script, ih]
@[simp] theorem digestBlocks_reads (n : Nat) (s : State) : (digestBlocks n s).reads = s.reads := by
  induction n with
  | zero => rfl
  | succ n ih => rw [digestBlocks, compressBody_reads, ih]
@[simp] theorem digestBlocks_bufBytes (n : Nat) (s : State) : (digestBlocks n s).bufBytes = s.bufBytes := by
  induction n with
  | zero => rfl
  | succ n ih => rw [digestBlocks, compressBody_bufBytes, ih]

end Sys2Proof.Machine
end

