-- ==== Sys2Proof/Laws/Memory.lean ====
section
/-! SUPPORT. The memory operations: a read after a write, the canonical form, and the bytes of the big-endian accesses. -/

namespace Sys2Proof.Machine

/-- A read after a store: the byte stored, or the byte that was there. -/
@[simp] theorem Memory.get?_put (m : Memory) (a b : Nat) (x : Byte) :
    Memory.get? (Memory.put m a x) b = if b = a then some x else Memory.get? m b := by
  induction m with
  | nil => simp [Memory.put, Memory.get?]
  | cons c m ih =>
    obtain ⟨k, y⟩ := c
    simp only [Memory.put]
    split
    · simp [Memory.get?]
    · split
      · subst_vars; simp only [Memory.get?]; split <;> rfl
      · simp only [Memory.get?, ih]; split <;> split <;> simp_all

/-- A list rises when its head is below the next address and its tail rises. -/
theorem Memory.rising_cons (c : Host.Cell) (m : Memory) :
    Memory.rising (c :: m) = true ↔ (∀ d ∈ m.head?, c.1 < d.1) ∧ Memory.rising m = true := by
  cases m with
  | nil => simp [Memory.rising]
  | cons d m => simp [Memory.rising]

/-- The head of a store's result has the stored address or is the old head. -/
theorem Memory.head?_put {m : Memory} {a : Nat} {x : Byte} {d : Host.Cell} (h : d ∈ (Memory.put m a x).head?) :
    d.1 = a ∨ d ∈ m.head? := by
  cases m with
  | nil => simp [Memory.put] at h; simp [← h]
  | cons c m =>
    simp only [Memory.put] at h
    split at h
    · simp at h; simp [← h]
    · split at h
      · simp at h; simp [← h]
      · simp at h; simp [← h]

/-- A store keeps the addresses rising. -/
theorem Memory.rising_put {m : Memory} (h : Memory.rising m = true) (a : Nat) (x : Byte) :
    Memory.rising (Memory.put m a x) = true := by
  induction m with
  | nil => rfl
  | cons c m ih =>
    obtain ⟨k, y⟩ := c
    have hc := (Memory.rising_cons _ _).1 h
    simp only [Memory.put]
    split
    · exact (Memory.rising_cons _ _).2 ⟨by simpa, h⟩
    · split
      · next e => subst e; exact (Memory.rising_cons _ _).2 ⟨hc.1, hc.2⟩
      · refine (Memory.rising_cons _ _).2 ⟨fun d hd => ?_, ih hc.2⟩
        rcases Memory.head?_put hd with e | hd
        · simp only; omega
        · exact hc.1 d hd

/-- A store inside the buffer keeps the canonical form. -/
theorem Memory.wf_put {limit : Nat} {m : Memory} (h : Memory.wf limit m = true) {a : Nat} (ha : a < limit) (x : Byte) :
    Memory.wf limit (Memory.put m a x) = true := by
  simp only [Memory.wf, Bool.and_eq_true, List.all_eq_true, decide_eq_true_eq] at h ⊢
  refine ⟨Memory.rising_put h.1 a x, ?_⟩
  have key : ∀ (m : Memory), (∀ c ∈ m, c.1 < limit) → ∀ c ∈ Memory.put m a x, c.1 < limit := by
    intro m
    induction m with
    | nil => simp [Memory.put, ha]
    | cons c m ih =>
      obtain ⟨k, y⟩ := c
      intro hm
      have hk := hm (k, y) (by simp)
      have ht : ∀ c ∈ m, c.1 < limit := fun c hc => hm c (by simp [hc])
      simp only [Memory.put]
      split
      · intro c hc
        rcases List.mem_cons.1 hc with rfl | hc
        · exact ha
        · exact hm c hc
      · split
        · intro c hc
          rcases List.mem_cons.1 hc with rfl | hc
          · exact ha
          · exact ht c hc
        · intro c hc
          rcases List.mem_cons.1 hc with rfl | hc
          · exact hk
          · exact ih ht c hc
  exact key m h.2

/-- MemWrite, byte by byte: byte `k` of `n` is the `k`-th most significant. -/
theorem Memory.get?_write (m : Memory) (addr n v b : Nat) :
    Memory.get? (Memory.write addr n v m) b =
      if addr ≤ b ∧ b < addr + n then some (BitVec.ofNat 8 (v / 256 ^ (addr + n - 1 - b))) else Memory.get? m b := by
  induction n generalizing v with
  | zero => simp [Memory.write]
  | succ n ih =>
    simp only [Memory.write, Memory.get?_put, ih]
    by_cases h : b = addr + n
    · subst h; simp
    · by_cases h' : addr ≤ b ∧ b < addr + n
      · have e : addr + (n + 1) - 1 - b = (addr + n - 1 - b) + 1 := by omega
        rw [if_neg h, if_pos h', if_pos (by omega), e, pow_succ', Nat.div_div_eq_div_mul]
      · rw [if_neg h, if_neg h', if_neg (by omega)]

/-- The zero fill, byte by byte. -/
theorem Memory.get?_zeroFill (m : Memory) (addr n b : Nat) :
    Memory.get? (Memory.zeroFill addr n m) b = if addr ≤ b ∧ b < addr + n then some 0 else Memory.get? m b := by
  induction n with
  | zero => simp [Memory.zeroFill]
  | succ n ih =>
    simp only [Memory.zeroFill, Memory.get?_put, ih]
    by_cases h : b = addr + n
    · subst h; simp
    · by_cases h' : addr ≤ b ∧ b < addr + n
      · rw [if_neg h, if_pos h', if_pos (by omega)]
      · rw [if_neg h, if_neg h', if_neg (by omega)]

/-- MemWrite inside the buffer keeps the canonical form. -/
theorem Memory.wf_write {limit : Nat} {m : Memory} (h : Memory.wf limit m = true) {addr n : Nat} (v : Nat)
    (hn : addr + n ≤ limit) : Memory.wf limit (Memory.write addr n v m) = true := by
  induction n generalizing v with
  | zero => exact h
  | succ n ih => exact Memory.wf_put (ih _ (by omega)) (by omega) _

/-- The zero fill inside the buffer keeps the canonical form. -/
theorem Memory.wf_zeroFill {limit : Nat} {m : Memory} (h : Memory.wf limit m = true) {addr n : Nat}
    (hn : addr + n ≤ limit) : Memory.wf limit (Memory.zeroFill addr n m) = true := by
  induction n with
  | zero => exact h
  | succ n ih => exact Memory.wf_put (ih (by omega)) (by omega) _

/-- No address at or below the first one of the tail of a rising memory is listed in it twice. -/
theorem Memory.get?_none_of_lt {m : Memory} {k : Nat} {y : Byte} (h : Memory.rising ((k, y) :: m) = true) {a : Nat}
    (ha : a ≤ k) : Memory.get? m a = none := by
  induction m generalizing k y with
  | nil => rfl
  | cons c m ih =>
    obtain ⟨k', y'⟩ := c
    simp only [Memory.rising, Bool.and_eq_true, decide_eq_true_eq] at h
    rw [Memory.get?, if_neg (by omega), ih h.2 (by omega)]

/-- Canonical memories with the same bytes are the same data. -/
theorem Memory.ext {m n : Memory} (hm : Memory.rising m = true) (hn : Memory.rising n = true)
    (h : ∀ a, Memory.get? m a = Memory.get? n a) : m = n := by
  have tail : ∀ {c : Host.Cell} {m : Memory}, Memory.rising (c :: m) = true → Memory.rising m = true := by
    intro c m h
    cases m with
    | nil => rfl
    | cons c' m => simp [Memory.rising] at h; exact h.2
  induction m generalizing n with
  | nil =>
    cases n with
    | nil => rfl
    | cons c n => have := h c.1; simp [Memory.get?] at this
  | cons c m ih =>
    obtain ⟨k, y⟩ := c
    cases n with
    | nil => have := h k; simp [Memory.get?] at this
    | cons c' n =>
      obtain ⟨k', y'⟩ := c'
      have hk := h k
      have hk' := h k'
      have e : k = k' := by
        rcases Nat.lt_trichotomy k k' with lt | e | lt
        · rw [Memory.get?, if_pos rfl, Memory.get?, if_neg (by omega), Memory.get?_none_of_lt hn (by omega)] at hk
          simp at hk
        · exact e
        · rw [Memory.get?, if_neg (by omega), Memory.get?_none_of_lt hm (by omega), Memory.get?, if_pos rfl] at hk'
          simp at hk'
      subst e
      have ey : y = y' := by simpa [Memory.get?] using hk
      subst ey
      rw [ih (tail hm) (tail hn)]
      intro a
      have ha := h a
      by_cases e : a = k
      · subst e; rw [Memory.get?_none_of_lt hm (le_refl _), Memory.get?_none_of_lt hn (le_refl _)]
      · simpa [Memory.get?, e] using ha

/-- A byte of BUF depends on the stored bytes and on the reset's draws alone. -/
theorem readByte_congr {s s' : State} (hb : s'.buf = s.buf) (hr : s'.resets = s.resets) : readByte s' = readByte s := by
  funext i; rw [readByte, readByte, hb, hr]

/-- MemRead depends on the bytes it covers alone. -/
theorem memRead_congr {s s' : State} {addr addr' n : Nat}
    (h : ∀ i < n, readByte s' (addr' + i) = readByte s (addr + i)) : memRead s' addr' n = memRead s addr n := by
  induction n with
  | zero => rfl
  | succ n ih => rw [memRead, memRead, ih (fun i hi => h i (by omega)), h n (by omega)]

/-- A word read is the big-endian word of its four bytes (20_memory.md R54). -/
theorem readWord_eq_be32 (s : State) (addr : Nat) :
    readWord s addr = be32 (readByte s addr) (readByte s (addr + 1)) (readByte s (addr + 2)) (readByte s (addr + 3)) := by
  apply BitVec.eq_of_toNat_eq
  simp only [readWord, memRead, be32, BitVec.toNat_ofNat, BitVec.toNat_append, Nat.add_zero, Nat.zero_mul, Nat.zero_add]
  have h0 := (readByte s addr).isLt
  have h1 := (readByte s (addr + 1)).isLt
  have h2 := (readByte s (addr + 2)).isLt
  have h3 := (readByte s (addr + 3)).isLt
  rw [← Nat.shiftLeft_add_eq_or_of_lt h1, ← Nat.shiftLeft_add_eq_or_of_lt h2, ← Nat.shiftLeft_add_eq_or_of_lt h3]
  simp only [Nat.shiftLeft_eq]
  omega

end Sys2Proof.Machine
end

