-- ==== Sys2Proof/Laws/Schedule.lean ====
section
/-! SUPPORT. The block expander: every word of a schedule, and that the first 16 words determine it. -/

namespace Sys2Proof.Machine

/-- `ROTL_n` of 00_scope.md R8 is the library's rotation. -/
theorem rotl_eq_rotateLeft {n : Nat} (h : n < 32) (x : Word) : rotl n x = x.rotateLeft n := by
  rw [rotl, BitVec.rotateLeft, Nat.mod_eq_of_lt h]; rfl

/-- A word after the first loop of ExpandBody. -/
theorem loadWords_get (s : State) (j n : Nat) (w : Vector Word 80) (i : Nat) (h : i < 80) :
    (loadWords s j n w)[i] = if i < n then readWord s (blockAddr j + 4 * i) else w[i] := by
  induction n with
  | zero => simp [loadWords]
  | succ n ih =>
    rw [loadWords, Vector.getElem_setIfInBounds h, ih]
    by_cases e : n = i
    · subst e; simp
    · rw [if_neg e]; by_cases h' : i < n
      · rw [if_pos h', if_pos (by omega)]
      · rw [if_neg h', if_neg (by omega)]

/-- One turn of the second loop writes its word and leaves the others. -/
theorem extendWord_get {t : Nat} (ht : t < 80) (w : Vector Word 80) (i : Nat) (h : i < 80) :
    (extendWord t w)[i] =
      if i = t then (w[t - 3] ^^^ w[t - 8] ^^^ w[t - 14] ^^^ w[t - 16]).rotateLeft 1 else w[i] := by
  rw [extendWord, dif_pos ht]
  rw [Vector.getElem_set]
  simp only [rotl_eq_rotateLeft (by omega : 1 < 32), eq_comm (a := t)]

/-- The second loop leaves the words it has not reached. -/
theorem extendWords_get_of_outside (w : Vector Word 80) (n : Nat) (hn : n ≤ 64) (i : Nat) (h : i < 80)
    (hi : i < 16 ∨ 16 + n ≤ i) : (extendWords n w)[i] = w[i] := by
  induction n with
  | zero => rfl
  | succ n ih => rw [extendWords, extendWord_get (by omega), if_neg (by omega), ih (by omega) (by omega)]

/-- The words the second loop has reached satisfy the recurrence among themselves. -/
theorem extendWords_recurrence (w : Vector Word 80) (n : Nat) (hn : n ≤ 64) (t : Nat) (h : t < 80) (h16 : 16 ≤ t)
    (ht : t < 16 + n) :
    (extendWords n w)[t] =
      ((extendWords n w)[t - 3] ^^^ (extendWords n w)[t - 8] ^^^ (extendWords n w)[t - 14] ^^^
        (extendWords n w)[t - 16]).rotateLeft 1 := by
  induction n with
  | zero => omega
  | succ n ih =>
    simp only [extendWords]
    by_cases e : t = 16 + n
    · subst e
      rw [extendWord_get h, if_pos rfl, extendWord_get h, extendWord_get h, extendWord_get h, extendWord_get h,
        if_neg (by omega), if_neg (by omega), if_neg (by omega), if_neg (by omega)]
    · have h' : 16 + n < 80 := by omega
      rw [extendWord_get h', extendWord_get h', extendWord_get h', extendWord_get h', extendWord_get h',
        if_neg (by omega), if_neg (by omega), if_neg (by omega), if_neg (by omega), if_neg (by omega)]
      exact ih (by omega) (by omega)

/-- The first 16 words after both loops are the words of the block. -/
theorem extendWords_loadWords_get (s : State) (j n m : Nat) (w : Vector Word 80) (hn : n ≤ 64) (i : Nat) (h : i < 16)
    (hm : i < m) : (extendWords n (loadWords s j m w))[i] = readWord s (blockAddr j + 4 * i) := by
  rw [extendWords_get_of_outside _ n hn i (by omega) (Or.inl h), loadWords_get, if_pos hm]

/-- The first 16 words of a schedule are the block (41_expander.md R113). -/
theorem schedule_get_block (j : Nat) (s : State) (i : Nat) (h : i < 16) :
    (schedule j s)[i] = readWord s (blockAddr j + 4 * i) := by
  rw [schedule_eq]
  exact extendWords_loadWords_get s j _ _ s.w (Nat.le_refl _) i h h

/-- The other words of a schedule satisfy the recurrence (41_expander.md R111). -/
theorem schedule_recurrence (j : Nat) (s : State) (t : Nat) (h : t < 80) (h16 : 16 ≤ t) :
    (schedule j s)[t] =
      ((schedule j s)[t - 3] ^^^ (schedule j s)[t - 8] ^^^ (schedule j s)[t - 14] ^^^ (schedule j s)[t - 16]).rotateLeft 1 := by
  rw [schedule_eq]
  exact extendWords_recurrence _ _ (Nat.le_refl _) t h h16 h

/-- Two vectors that satisfy the recurrence and agree in their first 16 words are equal. -/
theorem recurrence_unique {w w' : Vector Word 80}
    (hw : ∀ (t : Nat) (h : t < 80), 16 ≤ t → w[t] = (w[t - 3] ^^^ w[t - 8] ^^^ w[t - 14] ^^^ w[t - 16]).rotateLeft 1)
    (hw' : ∀ (t : Nat) (h : t < 80), 16 ≤ t →
      w'[t] = (w'[t - 3] ^^^ w'[t - 8] ^^^ w'[t - 14] ^^^ w'[t - 16]).rotateLeft 1)
    (h16 : ∀ (i : Nat) (h : i < 16), w[i] = w'[i]) : w = w' := by
  have all : ∀ (t : Nat) (h : t < 80), w[t] = w'[t] := by
    intro t
    induction t using Nat.strongRecOn with
    | ind t ih =>
      intro h
      by_cases ht : t < 16
      · exact h16 t ht
      · rw [hw t h (by omega), hw' t h (by omega), ih (t - 3) (by omega), ih (t - 8) (by omega),
          ih (t - 14) (by omega), ih (t - 16) (by omega)]
  exact Vector.ext all

/-- The schedule depends only on the words of the block (41_expander.md R113). -/
theorem schedule_congr {s s' : State} {j j' : Nat}
    (h : ∀ i < 16, readWord s (blockAddr j + 4 * i) = readWord s' (blockAddr j' + 4 * i)) :
    schedule j s = schedule j' s' :=
  recurrence_unique (schedule_recurrence j s) (schedule_recurrence j' s')
    (fun i hi => by rw [schedule_get_block _ _ _ hi, schedule_get_block _ _ _ hi, h i hi])

/-- Equal blocks have equal words. -/
theorem readWord_eq_of_block_eq {s s' : State} {j j' : Nat} (h : s.block j = s'.block j') (i : Nat) (hi : i < 16) :
    readWord s (blockAddr j + 4 * i) = readWord s' (blockAddr j' + 4 * i) := by
  have hb : ∀ k < 64, readByte s (64 * j + k) = readByte s' (64 * j' + k) := by
    intro k hk
    have := congrArg (fun l => l[k]?) h
    simpa [State.block, hk] using this
  refine congrArg (BitVec.ofNat 32) (memRead_congr (fun k hk => ?_))
  have := hb (4 * i + k) (by omega)
  simpa [blockAddr, Nat.add_assoc] using this

end Sys2Proof.Machine
end

