-- ==== Sys2Proof/Laws/Compression.lean ====
section
/-! SUPPORT. The rounds and the compressor: how T runs, and what A..E and H become. -/

namespace Sys2Proof.Machine

/-- RoundBody where it is used, T <= 79. -/
theorem roundBody_eq {s : State} (h : s.t.toNat < 80) :
    roundBody s = { s with v := roundVars s.t.toNat s.w[s.t.toNat] s.v, t := s.t + 1 } := dif_pos h

/-- T after RoundBody. -/
theorem roundBody_t_toNat {s : State} (h : s.t.toNat < 80) : (roundBody s).t.toNat = s.t.toNat + 1 := by
  rw [roundBody_eq h]
  show (s.t + 1#7).toNat = s.t.toNat + 1
  rw [BitVec.toNat_add, BitVec.toNat_ofNat]
  omega

/-- A..E after `n` rounds from round 0, over the schedule `w`. -/
def varsAfter (w : Vector Word 80) (v : WorkVars) (n : Nat) : WorkVars :=
  (List.range n).foldl (fun v t => roundVars t (w.getD t 0) v) v

/-- `n` RoundBodies from T = 0: T counts them and A..E are the fold of the rounds. -/
theorem rounds_from_zero {s : State} (h : s.t = 0) (n : Nat) (hn : n ≤ 80) :
    (rounds n s).t.toNat = n ∧ (rounds n s).v = varsAfter s.w s.v n := by
  induction n with
  | zero => simp [rounds, varsAfter, h]
  | succ n ih =>
    obtain ⟨ht, hv⟩ := ih (by omega)
    have lt : (rounds n s).t.toNat < 80 := by omega
    refine ⟨by rw [rounds, roundBody_t_toNat lt, ht], ?_⟩
    rw [rounds, roundBody_eq lt, varsAfter, List.range_succ, List.foldl_append, ← varsAfter, ← hv]
    simp [ht, Vector.getD, show n < 80 by omega]

/-- What the compressor leaves (42_compression.md R129, end state), as one record update. -/
theorem compressBody_eq (j : Nat) (s : State) :
    compressBody j s = { s with
      h := accumHash s.h (varsAfter (schedule j s) ⟨s.h.h0, s.h.h1, s.h.h2, s.h.h3, s.h.h4⟩ 80)
      v := varsAfter (schedule j s) ⟨s.h.h0, s.h.h1, s.h.h2, s.h.h3, s.h.h4⟩ 80
      w := schedule j s
      t := Const.noBlock
      cmpcnt := s.cmpcnt + 1 } := by
  have hv := (rounds_from_zero (s := loadBody (expandBody j s)) rfl 80 (le_refl _)).2
  rw [← allRounds_eq] at hv
  simp only [loadBody_w, loadBody_v, expandBody_w, expandBody_h] at hv
  rw [compressBody, accumBody]
  simp only [hv, allRounds_h, allRounds_w, allRounds_msglen, allRounds_padlen, allRounds_cmpcnt, allRounds_status,
    allRounds_pending, allRounds_buf, allRounds_capacity, allRounds_resets, allRounds_draws, allRounds_script,
    allRounds_reads, loadBody_h, loadBody_w, loadBody_msglen, loadBody_padlen, loadBody_cmpcnt, loadBody_status,
    loadBody_pending, loadBody_buf, loadBody_capacity, loadBody_resets, loadBody_draws, loadBody_script, loadBody_reads,
    expandBody_h, expandBody_w, expandBody_msglen, expandBody_padlen, expandBody_cmpcnt, expandBody_status,
    expandBody_pending, expandBody_buf, expandBody_capacity, expandBody_resets, expandBody_draws, expandBody_script,
    expandBody_reads]

/-- The model's functions by quarter are those of `Reference`. -/
theorem mix_eq_reference (t : Nat) (b c d : Word) : mix t b c d = Reference.mixing t b c d := by
  have h : t / 20 = 0 ∨ t / 20 = 1 ∨ t / 20 = 2 ∨ 3 ≤ t / 20 := by omega
  unfold mix Reference.mixing
  rcases h with h | h | h | h
  · rw [if_pos (by omega), h]; rfl
  · rw [if_neg (by omega), if_pos (by omega), h]; rfl
  · rw [if_neg (by omega), if_neg (by omega), if_pos (by omega), h]; rfl
  · rw [if_neg (by omega), if_neg (by omega), if_neg (by omega)]
    split
    · omega
    · omega
    · rfl

theorem roundConstant_eq_reference (t : Nat) : roundConstant t = Reference.constant t := by
  have h : t / 20 = 0 ∨ t / 20 = 1 ∨ t / 20 = 2 ∨ 3 ≤ t / 20 := by omega
  unfold roundConstant Reference.constant
  rcases h with h | h | h | h
  · rw [if_pos (by omega), h]; rfl
  · rw [if_neg (by omega), if_pos (by omega), h]; rfl
  · rw [if_neg (by omega), if_neg (by omega), if_pos (by omega), h]; rfl
  · rw [if_neg (by omega), if_neg (by omega), if_neg (by omega)]
    split
    · omega
    · omega
    · omega
    · rfl

theorem roundVars_eq_reference (t : Nat) (x : Word) (v : WorkVars) : roundVars t x v = Reference.round x t v := by
  rw [roundVars, Reference.round, mix_eq_reference, roundConstant_eq_reference, rotl_eq_rotateLeft (by omega),
    rotl_eq_rotateLeft (by omega)]

end Sys2Proof.Machine
end

