-- ==== Sys2Proof/Laws/Decode.lean ====
section
/-! SUPPORT. The fields of a command word as numbers, and the word the encoder writes. -/

namespace Sys2Proof

/-- OPC is the word modulo 256 (30_encoding.md R80). -/
theorem opcField_eq (v : Word) : opcField v = v.toNat % 256 := by
  simp [opcField, BitVec.extractLsb'_toNat]

/-- ARG is the word divided by 256 (30_encoding.md R80). -/
theorem argField_eq (v : Word) : argField v = v.toNat / 256 := by
  have := v.isLt
  simp [argField, BitVec.extractLsb'_toNat, Nat.shiftRight_eq_div_pow]
  omega

/-- ARG has 24 bits. -/
theorem argField_lt (v : Word) : argField v < 2 ^ 24 := by
  have := v.isLt
  rw [argField_eq]; omega

/-- The word of a well-formed command, as a number. -/
theorem encode_toNat (i : Instr) (h : WellFormed i = true) : (encode i).toNat = opcodeOf i + 256 * argOf i := by
  have ho : opcodeOf i < 2 ^ 8 := by cases i <;> simp [opcodeOf]
  have ha : argOf i < 2 ^ 24 := by cases i <;> simp_all [argOf, WellFormed]
  rw [encode, BitVec.toNat_or, BitVec.toNat_shiftLeft, BitVec.toNat_ofNat, BitVec.toNat_ofNat,
    Nat.mod_eq_of_lt (by omega : opcodeOf i < 2 ^ 32), Nat.mod_eq_of_lt (by omega : argOf i < 2 ^ 32),
    Nat.mod_eq_of_lt (by rw [Nat.shiftLeft_eq]; omega), Nat.or_comm, ← Nat.shiftLeft_add_eq_or_of_lt ho, Nat.shiftLeft_eq]
  omega

end Sys2Proof
end

