-- ==== Sys2Proof/Laws/Padder.lean ====
section
/-! SUPPORT. The padder: the bounds of P(L), the checks, and every byte after PadBody. -/

namespace Sys2Proof.Machine

/-- L + 9 <= P(L) <= L + 72, and P(L) is a multiple of 64 (40_padder.md R100). -/
theorem padLength_bounds (len : Nat) :
    padLength len % 64 = 0 ∧ len + 9 ≤ padLength len ∧ padLength len ≤ len + 72 := by unfold padLength; omega

/-- BUF_BYTES is a multiple of 64 from 64 to 32768 (00_scope.md R5). -/
theorem bufBytes_bounds (s : State) : s.bufBytes % 64 = 0 ∧ 64 ≤ s.bufBytes ∧ s.bufBytes ≤ 32768 := by
  have := s.capacity.isLt; unfold State.bufBytes; omega

/-- PadCheck passes exactly when the padded message fits BUF. -/
theorem padCheck_eq_none (s : State) : padCheck s = none ↔ s.msglen.toNat + 9 ≤ s.bufBytes := by
  have hb := bufBytes_bounds s
  have hp := padLength_bounds s.msglen.toNat
  unfold padCheck
  split
  · simp; omega
  · split
    · simp; omega
    · simp; omega

/-- The bytes of BUF after PadBody (40_padder.md R98). -/
theorem get?_padMemory (len : Nat) (m : Memory) (a : Nat) :
    Memory.get? (padMemory len m) a =
      if a < len then Memory.get? m a
      else if a = len then some 0x80
      else if a < padLength len - 8 then some 0
      else if a < padLength len then some (BitVec.ofNat 8 (8 * len / 256 ^ (padLength len - 1 - a)))
      else Memory.get? m a := by
  have hp := padLength_bounds len
  rw [padMemory, Memory.get?_write, Memory.get?_zeroFill, Memory.get?_put]
  by_cases h1 : a < len
  · rw [if_pos h1, if_neg (by omega), if_neg (by omega), if_neg (by omega)]
  · rw [if_neg h1]
    by_cases h2 : a = len
    · rw [if_pos h2, if_neg (by omega), if_neg (by omega), if_pos h2]
    · simp only [if_neg h2]
      by_cases h3 : a < padLength len - 8
      · rw [if_pos h3, if_neg (by omega), if_pos (by omega)]
      · rw [if_neg h3]
        by_cases h4 : a < padLength len
        · rw [if_pos h4, if_pos (by omega), show padLength len - 8 + 8 - 1 - a = padLength len - 1 - a by omega]
        · rw [if_neg h4, if_neg (by omega), if_neg (by omega)]

/-- PadBody inside BUF keeps the canonical form. -/
theorem wf_padMemory {limit len : Nat} {m : Memory} (h : Memory.wf limit m = true) (hp : padLength len ≤ limit) :
    Memory.wf limit (padMemory len m) = true := by
  have := padLength_bounds len
  exact Memory.wf_write (Memory.wf_zeroFill (Memory.wf_put h (by omega) _) (by omega)) _ (by omega)

/-- Padding twice is padding once, on a memory in canonical form. -/
theorem padMemory_idem {limit len : Nat} {m : Memory} (h : Memory.wf limit m = true) (hp : padLength len ≤ limit) :
    padMemory len (padMemory len m) = padMemory len m := by
  have rising : ∀ {m : Memory}, Memory.wf limit m = true → Memory.rising m = true := by
    intro m h; simp only [Memory.wf, Bool.and_eq_true] at h; exact h.1
  have h1 := wf_padMemory h hp
  refine Memory.ext (rising (wf_padMemory h1 hp)) (rising h1) (fun a => ?_)
  simp only [get?_padMemory]
  split
  · rfl
  · split
    · rfl
    · split
      · rfl
      · split <;> rfl

end Sys2Proof.Machine
end

