-- ==== Sys2Proof/Laws/Reference.lean ====
section
/-! SUPPORT. The machine's expander, rounds and padder against the algorithm over byte lists of `Reference`. -/

namespace Sys2Proof.Machine

theorem reference_schedule_eq (block : List Byte) : Reference.schedule block = Reference.words block 64 := by
  unfold Reference.schedule; rfl

theorem reference_words_length (block : List Byte) (n : Nat) : (Reference.words block n).length = 16 + n := by
  induction n with
  | zero => simp [Reference.words]
  | succ n ih => simp [Reference.words, ih]; omega

/-- A word once written stays. -/
theorem reference_words_succ_getD (block : List Byte) (n t : Nat) (h : t < 16 + n) :
    (Reference.words block (n + 1)).getD t 0 = (Reference.words block n).getD t 0 := by
  rw [Reference.words]
  simp only [List.getD_eq_getElem?_getD]
  rw [List.getElem?_append_left (by rw [reference_words_length]; exact h)]

/-- The first 16 words are the block's. -/
theorem reference_words_getD_block (block : List Byte) (n t : Nat) (h : t < 16) :
    (Reference.words block n).getD t 0 = Reference.wordAt block t := by
  induction n with
  | zero => simp [Reference.words, h]
  | succ n ih => rw [reference_words_succ_getD _ _ t (by omega), ih]

/-- The other words satisfy the recurrence. -/
theorem reference_words_recurrence (block : List Byte) (n t : Nat) (h : t < 16 + n) (h16 : 16 ≤ t) :
    (Reference.words block n).getD t 0 =
      ((Reference.words block n).getD (t - 3) 0 ^^^ (Reference.words block n).getD (t - 8) 0 ^^^
        (Reference.words block n).getD (t - 14) 0 ^^^ (Reference.words block n).getD (t - 16) 0).rotateLeft 1 := by
  induction n with
  | zero => omega
  | succ n ih =>
    rw [reference_words_succ_getD _ _ (t - 3) (by omega), reference_words_succ_getD _ _ (t - 8) (by omega),
      reference_words_succ_getD _ _ (t - 14) (by omega), reference_words_succ_getD _ _ (t - 16) (by omega)]
    by_cases e : t = 16 + n
    · subst e
      conv_lhs => rw [Reference.words]
      simp only [List.getD_eq_getElem?_getD]
      rw [List.getElem?_append_right (by rw [reference_words_length])]
      simp only [reference_words_length, Nat.sub_self, List.getElem?_cons_zero, Option.getD_some]
      rw [show 16 + n - 3 = n + 13 by omega, show 16 + n - 8 = n + 8 by omega, show 16 + n - 14 = n + 2 by omega,
        show 16 + n - 16 = n by omega]
    · rw [reference_words_succ_getD _ _ t (by omega)]
      exact ih (by omega)

theorem block_getD (s : State) (j k : Nat) (h : k < 64) : (s.block j).getD k 0 = readByte s (64 * j + k) := by
  simp [State.block, h]

theorem wordAt_block (s : State) (j i : Nat) (h : i < 16) :
    Reference.wordAt (s.block j) i = readWord s (blockAddr j + 4 * i) := by
  rw [readWord_eq_be32, Reference.wordAt, be32, block_getD _ _ _ (by omega), block_getD _ _ _ (by omega),
    block_getD _ _ _ (by omega), block_getD _ _ _ (by omega)]
  simp only [blockAddr, Nat.add_assoc]

/-- The expander fills W with the schedule of the block's bytes. -/
theorem schedule_eq_reference (j : Nat) (s : State) (t : Nat) (h : t < 80) :
    (schedule j s)[t] = (Reference.schedule (s.block j)).getD t 0 := by
  rw [reference_schedule_eq]
  generalize hn : (64 : Nat) = n
  induction t using Nat.strongRecOn with
  | ind t ih =>
    by_cases ht : t < 16
    · rw [schedule_get_block _ _ _ ht, reference_words_getD_block _ _ _ ht, wordAt_block _ _ _ ht]
    · rw [schedule_recurrence _ _ _ h (by omega), reference_words_recurrence _ _ _ (by omega) (by omega),
        ih (t - 3) (by omega), ih (t - 8) (by omega), ih (t - 14) (by omega), ih (t - 16) (by omega)]

/-- The rounds are the rounds over that schedule. -/
theorem varsAfter_eq_reference (j : Nat) (s : State) (v : WorkVars) (n : Nat) (hn : n ≤ 80) :
    varsAfter (schedule j s) v n =
      (List.range n).foldl (fun v t => Reference.round ((Reference.schedule (s.block j)).getD t 0) t v) v := by
  induction n with
  | zero => rfl
  | succ n ih =>
    rw [varsAfter, List.range_succ, List.foldl_append, List.foldl_append, ← ih (by omega), ← varsAfter]
    simp only [List.foldl_cons, List.foldl_nil, roundVars_eq_reference]
    rw [← schedule_eq_reference j s n (by omega)]
    simp [Vector.getD, show n < 80 by omega]

/-- The compressor's H is the compression of the old H and the block's bytes. -/
theorem compressBody_h_reference (j : Nat) (s : State) :
    (compressBody j s).h = Reference.compress s.h (s.block j) := by
  rw [compressBody_eq, varsAfter_eq_reference _ _ _ _ (le_refl _), Reference.compress]
  rfl

theorem message_length (s : State) : s.message.length = s.msglen.toNat := by simp [State.message]

theorem padded_length (m : List Byte) : (Reference.padded m).length = padLength m.length := by
  simp only [Reference.padded, Reference.padding, List.length_append, List.length_cons, List.length_replicate,
    List.length_map, List.length_range, padLength]
  omega

/-- PadBody leaves the padded message in BUF[0 .. P-1]. -/
theorem padBody_eq_reference (s : State) :
    (List.range (padLength s.msglen.toNat)).map (readByte (padBody s)) = Reference.padded s.message := by
  have bd := padLength_bounds s.msglen.toNat
  have hml := message_length s
  apply List.ext_getElem?
  intro a
  by_cases hp : a < padLength s.msglen.toNat
  · rw [List.getElem?_map, List.getElem?_range hp, Option.map_some, readByte, padBody_buf, get?_padMemory, Reference.padded,
      Reference.padding, hml]
    by_cases h1 : a < s.msglen.toNat
    · rw [if_pos h1, List.getElem?_append_left (by omega)]
      simp [State.message, h1, readByte]
    · rw [if_neg h1, List.getElem?_append_right (by omega), hml]
      by_cases h2 : a = s.msglen.toNat
      · rw [if_pos h2, h2]; simp
      · have hz : (64 - (s.msglen.toNat + 9) % 64) % 64 = padLength s.msglen.toNat - s.msglen.toNat - 9 := by
          unfold padLength; omega
        rw [if_neg h2, show a - s.msglen.toNat = (a - s.msglen.toNat - 1) + 1 by omega, List.getElem?_cons_succ, hz]
        by_cases h3 : a < padLength s.msglen.toNat - 8
        · rw [if_pos h3, List.getElem?_append_left (by simp; omega)]
          simp [List.getElem?_replicate]; omega
        · rw [if_neg h3, if_pos hp, List.getElem?_append_right (by simp; omega), List.getElem?_map]
          simp only [List.length_replicate]
          rw [List.getElem?_range (by omega)]
          simp only [Option.map_some, Option.getD_some, Option.some.injEq]
          rw [show 7 - (a - s.msglen.toNat - 1 - (padLength s.msglen.toNat - s.msglen.toNat - 9)) =
            padLength s.msglen.toNat - 1 - a by omega]
  · rw [List.getElem?_eq_none (by simp; omega), List.getElem?_eq_none (by rw [padded_length, hml]; omega)]

/-- Block `j` after PadBody is 64 bytes of the padded message. -/
theorem padBody_block (s : State) (j : Nat) (h : 64 * j + 64 ≤ padLength s.msglen.toNat) :
    (padBody s).block j = ((Reference.padded s.message).drop (64 * j)).take 64 := by
  rw [← padBody_eq_reference]
  apply List.ext_getElem
  · simp [State.block]; omega
  · intro a h1 h2; simp [State.block]

end Sys2Proof.Machine
end

