-- ==== Sys2Proof/Laws/Step.lean ====
section
/-! SUPPORT. What a command and a step can do, each said once. -/

namespace Sys2Proof.Machine

/-- The check a command makes before its first write. -/
def commandCheck (i : Instr) (s : State) : Option CmdError :=
  match i with
  | .nop => none
  | .init => none
  | .pad => padCheck s
  | .expand j => if blockExists s j then none else some .blockRange
  | .loadwv => none
  | .round => if 79 < s.t.toNat then some .sequence else none
  | .accum => if s.t.toNat ≠ 80 then some .sequence else none
  | .compress j => if blockExists s j then none else some .blockRange
  | .digest => padCheck s

/-- What a command writes, its completion apart, once its check has passed. -/
def commandBody (i : Instr) (s : State) : State :=
  match i with
  | .nop => s
  | .init => initBody s
  | .pad => padBody s
  | .expand j => expandBody j s
  | .loadwv => loadBody s
  | .round => roundBody s
  | .accum => accumBody s
  | .compress j => compressBody j s
  | .digest => digestBody s

/-- Every command: its check, then the error or the body and the completion. -/
theorem exec_eq (i : Instr) (s : State) :
    exec i s = .next (match commandCheck i s with
      | some e => raiseCmdError e s
      | none => succeed (commandBody i s)) := by
  cases i with
  | nop => rfl
  | init => rfl
  | pad => rfl
  | expand j => simp only [exec, execExpand, commandCheck, commandBody]; split <;> rfl
  | loadwv => rfl
  | round => simp only [exec, execRound, commandCheck, commandBody]; split <;> rfl
  | accum => simp only [exec, execAccum, commandCheck, commandBody]; split <;> rfl
  | compress j => simp only [exec, execCompress, commandCheck, commandBody]; split <;> rfl
  | digest => rfl

/-- A command whose check passes. -/
theorem exec_of_passes {i : Instr} {s : State} (h : commandCheck i s = none) :
    exec i s = .next (succeed (commandBody i s)) := by rw [exec_eq, h]

/-- A command whose check fails. -/
theorem exec_of_fails {i : Instr} {s : State} {e : CmdError} (h : commandCheck i s = some e) :
    exec i s = .next (raiseCmdError e s) := by rw [exec_eq, h]

/-- A command ends in one of two ways: an error that leaves all but STATUS, or its body and a completion. -/
theorem exec_cases {i : Instr} {s t : State} (h : exec i s = .next t) :
    (∃ e, commandCheck i s = some e ∧ t = raiseCmdError e s) ∨
      (commandCheck i s = none ∧ t = succeed (commandBody i s)) := by
  rw [exec_eq] at h
  cases hc : commandCheck i s with
  | some e => rw [hc] at h; exact .inl ⟨e, rfl, by cases h; rfl⟩
  | none => rw [hc] at h; exact .inr ⟨rfl, by cases h; rfl⟩

/-- What no command's body writes. -/
theorem commandBody_frame (i : Instr) (s : State) :
    (commandBody i s).msglen = s.msglen ∧ (commandBody i s).pending = s.pending ∧
    (commandBody i s).status = s.status ∧ (commandBody i s).capacity = s.capacity ∧
    (commandBody i s).resets = s.resets ∧ (commandBody i s).draws = s.draws ∧
    (commandBody i s).script = s.script ∧ (commandBody i s).reads = s.reads := by
  cases i <;> simp [commandBody, digestBody]

/-- The core's turn on a step. -/
theorem step_core {s : State} (h : s.coreIsNext) : step s = coreTurn s.afterTurn := by
  unfold State.coreIsNext at h
  unfold step State.afterTurn
  split
  · next e => rw [e]; cases s; simp_all
  · next e => rw [e]; rfl
  · next e => simp [e] at h
  · next e => simp [e] at h
  · next e => simp [e] at h

/-- A host read on a step. -/
theorem step_read {s : State} {a : Addr} {rest : List Turn} (h : s.script = .read a :: rest) :
    step s = .next (hostRead a s.afterTurn) := by
  unfold step State.afterTurn; rw [h]; rfl

/-- A host write on a step. -/
theorem step_write {s : State} {a : Addr} {x : Word} {rest : List Turn} (h : s.script = .write a x :: rest) :
    step s = .next (hostWrite a x s.afterTurn) := by
  unfold step State.afterTurn; rw [h]; rfl

/-- A reset on a step. -/
theorem step_reset {s : State} {rest : List Turn} (h : s.script = .reset :: rest) :
    step s = .next (resetStep s.afterTurn) := by
  unfold step State.afterTurn; rw [h]; rfl

/-- The four kinds of turn. -/
theorem turn_cases (s : State) :
    s.coreIsNext ∨ (∃ a rest, s.script = .read a :: rest) ∨ (∃ a x rest, s.script = .write a x :: rest) ∨
      ∃ rest, s.script = .reset :: rest := by
  unfold State.coreIsNext
  cases h : s.script with
  | nil => simp
  | cons turn rest => cases turn <;> simp

/-- The core's turn: it idles, reports ILLEGAL_CMD, or runs the decoded command. -/
theorem coreTurn_cases (s : State) :
    (s.status.busy = false ∧ coreTurn s = .next s) ∨
    (s.status.busy = true ∧ (∃ e, decode s.pending = .error e) ∧ coreTurn s = .next (illegalCommand s)) ∨
    (s.status.busy = true ∧ ∃ i, decode s.pending = .ok i ∧ coreTurn s = exec i s) := by
  unfold coreTurn pendingCommand
  cases hb : s.status.busy with
  | false => simp
  | true =>
    cases hd : decode s.pending with
    | error e => simp
    | ok i => simp

/-- Every step answers a next state, by one of the turns. -/
theorem step_cases {s t : State} (h : step s = .next t) :
    (s.coreIsNext ∧ coreTurn s.afterTurn = .next t) ∨
    (∃ a rest, s.script = .read a :: rest ∧ t = hostRead a s.afterTurn) ∨
    (∃ a x rest, s.script = .write a x :: rest ∧ t = hostWrite a x s.afterTurn) ∨
    (∃ rest, s.script = .reset :: rest ∧ t = resetStep s.afterTurn) := by
  rcases turn_cases s with hc | ⟨a, rest, e⟩ | ⟨a, x, rest, e⟩ | ⟨rest, e⟩
  · exact .inl ⟨hc, by rw [← step_core hc, h]⟩
  · rw [step_read e] at h; exact .inr (.inl ⟨a, rest, e, by cases h; rfl⟩)
  · rw [step_write e] at h; exact .inr (.inr (.inl ⟨a, x, rest, e, by cases h; rfl⟩))
  · rw [step_reset e] at h; exact .inr (.inr (.inr ⟨rest, e, by cases h; rfl⟩))

/-- A host write ends in one of four ways. -/
theorem hostWrite_cases (a : Addr) (x : Word) (s : State) :
    (∃ e, locate s.bufBytes a = .error e ∧ hostWrite a x s = takeHostError e s) ∨
    (locate s.bufBytes a = .ok .status ∧ hostWrite a x s = writeStatus x s) ∨
    (∃ loc, locate s.bufBytes a = .ok loc ∧ loc ≠ .status ∧ s.status.busy = true ∧
      hostWrite a x s = takeHostError .writeWhileBusy s) ∨
    (∃ loc, locate s.bufBytes a = .ok loc ∧ loc ≠ .status ∧ s.status.busy = false ∧
      hostWrite a x s = writeIdle x s loc) := by
  unfold hostWrite
  cases hl : locate s.bufBytes a with
  | error e => simp
  | ok loc =>
    by_cases hs : loc = .status
    · subst hs; simp
    · cases hb : s.status.busy <;> simp [hs]

/-- A host read ends in one of three ways. -/
theorem hostRead_cases (a : Addr) (s : State) :
    (∃ e, locate s.bufBytes a = .error e ∧
      hostRead a s = { takeHostError e s with reads := (a, 0) :: s.reads }) ∨
    (∃ loc, locate s.bufBytes a = .ok loc ∧ s.status.busy = true ∧ loc.volatile = true ∧
      hostRead a s = { s with draws := s.draws + 1, reads := (a, Config.busyRead s.draws) :: s.reads }) ∨
    (∃ loc, locate s.bufBytes a = .ok loc ∧ (s.status.busy = false ∨ loc.volatile = false) ∧
      hostRead a s = { s with reads := (a, readLocation s loc) :: s.reads }) := by
  unfold hostRead answerRead
  cases hl : locate s.bufBytes a with
  | error e => simp
  | ok loc => cases hb : s.status.busy <;> cases hv : loc.volatile <;> simp [hv]

/-- A mapped word of BUF lies inside it (20_memory.md R51). -/
theorem locate_bufWord {bufBytes k : Nat} {a : Addr} (h : locate bufBytes a = .ok (.bufWord k)) (h64 : bufBytes % 64 = 0) :
    a.toNat = 0x8000 + 4 * k ∧ 4 * k + 4 ≤ bufBytes := by
  unfold locate at h
  split at h
  · cases h
  · next h4 =>
    split at h
    · next loc hm =>
      cases h
      unfold mapped at hm
      split at hm
      · next lt => unfold controlRegister at hm; split at hm <;> cases hm
      · split at hm
        · cases hm
        · split at hm
          · cases hm
          · split at hm
            · cases hm
            · split at hm
              · next hr => simp only [Option.some.injEq, Location.bufWord.injEq] at hm; omega
              · cases hm
    · cases h

/-- A run takes its first step. -/
theorem run_succ {s t : State} (h : step s = .next t) (k : Nat) :
    Sys2Proof.core.run (k + 1) s = Sys2Proof.core.run k t := by
  have key : ∀ (M : Host.Core) (s t : M.State), M.step s = .next t → M.run (k + 1) s = M.run k t := by
    intro M s t h; simp only [Host.Core.run, h]
  exact key Sys2Proof.core s t h

end Sys2Proof.Machine
end

