-- ==== Sys2Proof/Laws/Digest.lean ====
section
/-! SUPPORT. Runs of commands, and the blocks of DIGEST. -/

namespace Sys2Proof.Machine

/-- EXPAND of a block of BUF. -/
theorem expand_next {s : State} {j : Nat} (h : 64 * j + 64 ≤ s.bufBytes) :
    exec (.expand j) s = .next (succeed (expandBody j s)) :=
  exec_of_passes (by simp [commandCheck, blockAddr, h])

/-- COMPRESS of a block of BUF. -/
theorem compress_next {s : State} {j : Nat} (h : 64 * j + 64 ≤ s.bufBytes) :
    exec (.compress j) s = .next (succeed (compressBody j s)) :=
  exec_of_passes (by simp [commandCheck, blockAddr, h])

/-- PAD of a message whose padding fits BUF. -/
theorem pad_next {s : State} (h : s.msglen.toNat + 9 ≤ s.bufBytes) : exec .pad s = .next (succeed (padBody s)) :=
  exec_of_passes ((padCheck_eq_none s).2 h)

/-- DIGEST of a message whose padding fits BUF. -/
theorem digest_next {s : State} (h : s.msglen.toNat + 9 ≤ s.bufBytes) :
    exec .digest s = .next (succeed (digestBody s)) :=
  exec_of_passes ((padCheck_eq_none s).2 h)

theorem runCommands_cons {i : Instr} {is : List Instr} {s t : State} (h : exec i s = .next t) :
    runCommands (i :: is) s = runCommands is t := by rw [runCommands, h]

theorem successfulAccumulations_cons {i : Instr} {is : List Instr} {s t : State} (h : exec i s = .next t) :
    successfulAccumulations (i :: is) s =
      (if accumulates i && !t.status.err then 1 else 0) + successfulAccumulations is t := by
  rw [successfulAccumulations, h]

theorem runCommands_append (xs ys : List Instr) (s : State) :
    runCommands (xs ++ ys) s = runCommands ys (runCommands xs s) := by
  induction xs generalizing s with
  | nil => rfl
  | cons i is ih => rw [List.cons_append, runCommands_cons (exec_eq i s), runCommands_cons (exec_eq i s), ih]

/-- `n` ROUND commands are `n` RoundBodies, on a state whose last command succeeded. -/
theorem runCommands_rounds {s : State} (h0 : s.t = 0) (hs : s.status.afterSuccess = s.status) (n : Nat) (hn : n ≤ 80) :
    runCommands (List.replicate n .round) s = rounds n s := by
  induction n with
  | zero => rfl
  | succ n ih =>
    have ht := (rounds_from_zero h0 n (by omega)).1
    have hc : commandCheck .round (rounds n s) = none := by simp [commandCheck]; omega
    rw [List.replicate_succ', runCommands_append, ih (by omega), runCommands_cons (exec_of_passes hc), runCommands,
      commandBody, rounds, succeed_eq]
    apply State.ext <;> simp [hs]

/-- The compressor depends on H, on the stored bytes of BUF and on the reset's draws. -/
theorem compressBody_congr {s s' : State} (j : Nat) (hh : s.h = s'.h) (hb : s.buf = s'.buf) (hr : s.resets = s'.resets) :
    (compressBody j s).h = (compressBody j s').h ∧ (compressBody j s).v = (compressBody j s').v ∧
      (compressBody j s).w = (compressBody j s').w := by
  have hs : schedule j s = schedule j s' :=
    schedule_congr (fun i _ => congrArg (BitVec.ofNat 32) (memRead_congr (fun k _ => by rw [readByte_congr hb hr])))
  rw [compressBody_eq, compressBody_eq, hs, hh]
  exact ⟨rfl, rfl, rfl⟩

theorem digestBlocks_congr {s s' : State} (hh : s.h = s'.h) (hb : s.buf = s'.buf) (hr : s.resets = s'.resets) (n : Nat)
    (hn : 0 < n) :
    (digestBlocks n s).h = (digestBlocks n s').h ∧ (digestBlocks n s).v = (digestBlocks n s').v ∧
      (digestBlocks n s).w = (digestBlocks n s').w := by
  induction n with
  | zero => omega
  | succ n ih =>
    by_cases h0 : n = 0
    · subst h0; exact compressBody_congr _ hh hb hr
    · exact compressBody_congr _ (ih (by omega)).1 (by simpa) (by simpa)

/-- DIGEST's loop compresses the blocks in order. -/
theorem digestBlocks_h (n : Nat) (s : State) :
    (digestBlocks n s).h = (List.range n).foldl (fun h j => Reference.compress h (s.block j)) s.h := by
  induction n with
  | zero => rfl
  | succ n ih =>
    have hb : (digestBlocks n s).block n = s.block n := by
      rw [State.block, State.block, readByte_congr (s := s) (by simp) (by simp)]
    rw [digestBlocks, compressBody_h_reference, ih, List.range_succ, List.foldl_append, hb]
    rfl

/-- DIGEST's loop counts the blocks. -/
theorem digestBlocks_cmpcnt (n : Nat) (s : State) : (digestBlocks n s).cmpcnt = s.cmpcnt + BitVec.ofNat 32 n := by
  induction n with
  | zero => simp [digestBlocks]
  | succ n ih =>
    rw [digestBlocks, compressBody_eq]
    simp only [ih]
    rw [BitVec.add_assoc, show (1 : Word) = BitVec.ofNat 32 1 from rfl, ← BitVec.ofNat_add]

/-- No block is in flight after DIGEST's loop. -/
theorem digestBlocks_t (n : Nat) (s : State) (h : s.t = Const.noBlock) : (digestBlocks n s).t = Const.noBlock := by
  cases n with
  | zero => exact h
  | succ n => rw [digestBlocks, compressBody_eq]

end Sys2Proof.Machine
end

