-- ==== Sys2Proof/Laws/Host.lean ====
section
/-! SUPPORT. A host access, case by case, and where every offset leads. -/

namespace Sys2Proof.Machine

/-- A host read that meets an error answers 0 (60_exceptions.md R174). -/
theorem hostRead_of_error {a : Addr} {s : State} {e : HostError} (h : locate s.bufBytes a = .error e) :
    hostRead a s = { takeHostError e s with reads := (a, 0) :: s.reads } := by
  unfold hostRead answerRead; rw [h]

/-- A host read of a value that is exact (20_memory.md R54, R55, R58). -/
theorem hostRead_of_exact {a : Addr} {s : State} {loc : Location} (h : locate s.bufBytes a = .ok loc)
    (hv : s.status.busy = false ∨ loc.volatile = false) :
    hostRead a s = { s with reads := (a, readLocation s loc) :: s.reads } := by
  have hb : ¬ (s.status.busy && loc.volatile) = true := by
    rcases hv with hv | hv <;> simp [hv]
  unfold hostRead answerRead
  simp only [h, if_neg hb]

/-- A host read of volatile state while a command runs (20_memory.md R58). -/
theorem hostRead_of_draw {a : Addr} {s : State} {loc : Location} (h : locate s.bufBytes a = .ok loc)
    (hb : s.status.busy = true) (hv : loc.volatile = true) :
    hostRead a s = { s with draws := s.draws + 1, reads := (a, Config.busyRead s.draws) :: s.reads } := by
  have hd : (s.status.busy && loc.volatile) = true := by rw [hb, hv]; rfl
  unfold hostRead answerRead
  simp only [h, if_pos hd]

/-- A host write that meets an error is dropped (60_exceptions.md R174). -/
theorem hostWrite_of_error {a : Addr} {x : Word} {s : State} {e : HostError} (h : locate s.bufBytes a = .error e) :
    hostWrite a x s = takeHostError e s := by
  unfold hostWrite; rw [h]

/-- A host write of STATUS (10_state.md R32). -/
theorem hostWrite_of_status {a : Addr} {x : Word} {s : State} (h : locate s.bufBytes a = .ok .status) :
    hostWrite a x s = writeStatus x s := by
  unfold hostWrite; rw [h]; rfl

/-- A host write of anything else while a command runs (20_memory.md R57). -/
theorem hostWrite_of_busy {a : Addr} {x : Word} {s : State} {loc : Location} (h : locate s.bufBytes a = .ok loc)
    (hl : loc ≠ .status) (hb : s.status.busy = true) : hostWrite a x s = takeHostError .writeWhileBusy s := by
  unfold hostWrite; simp only [h, if_neg hl, if_pos hb]

/-- A host write of anything else while idle (20_memory.md R57). -/
theorem hostWrite_of_idle {a : Addr} {x : Word} {s : State} {loc : Location} (h : locate s.bufBytes a = .ok loc)
    (hl : loc ≠ .status) (hb : s.status.busy = false) : hostWrite a x s = writeIdle x s loc := by
  unfold hostWrite; simp [h, if_neg hl, hb]

/-- An offset that is no multiple of 4 (20_memory.md R50). -/
theorem locate_misaligned {n : Nat} {a : Addr} (h : a.toNat % 4 ≠ 0) : locate n a = .error .misaligned := by
  unfold locate; rw [if_pos h]

/-- An aligned offset outside the map (20_memory.md R51). -/
theorem locate_unmapped {n : Nat} {a : Addr} (h : a.toNat % 4 = 0) (hm : mapped n a.toNat = none) :
    locate n a = .error .unmapped := by
  unfold locate; rw [if_neg (by omega), hm]

/-- An aligned offset of the map. -/
theorem locate_mapped {n : Nat} {a : Addr} {loc : Location} (h : a.toNat % 4 = 0) (hm : mapped n a.toNat = some loc) :
    locate n a = .ok loc := by
  unfold locate; rw [if_neg (by omega), hm]

/-- The gaps of the map are unmapped. -/
theorem mapped_gap {n a : Nat}
    (h : 0x0028 ≤ a ∧ a < 0x0030 ∨ 0x0044 ≤ a ∧ a < 0x0050 ∨ 0x0064 ≤ a ∧ a < 0x0100 ∨ 0x0240 ≤ a ∧ a < 0x8000 ∨
      0x8000 + n ≤ a) : mapped n a = none := by
  unfold mapped
  rw [if_neg (by omega), if_neg (by omega), if_neg (by omega), if_neg (by omega), if_neg (by omega)]

/-- BUF word `k` (20_memory.md R52). -/
theorem locate_bufWordAddr {n k : Nat} (hn : n ≤ 32768) (hk : 4 * k < n) :
    locate n (BitVec.ofNat 16 (0x8000 + 4 * k)) = .ok (.bufWord k) := by
  have ha : (BitVec.ofNat 16 (0x8000 + 4 * k)).toNat = 0x8000 + 4 * k := by
    rw [BitVec.toNat_ofNat]; exact Nat.mod_eq_of_lt (by omega)
  refine locate_mapped (by omega) ?_
  rw [ha]; unfold mapped
  rw [if_neg (by omega), if_neg (by omega), if_neg (by omega), if_neg (by omega), if_pos (by omega)]
  exact congrArg (fun k => some (Location.bufWord k)) (by omega)

/-- W[t] (10_state.md R25). -/
theorem locate_sched (n : Nat) (t : Fin 80) : locate n (BitVec.ofNat 16 (0x0100 + 4 * t.val)) = .ok (.sched t) := by
  have ht := t.isLt
  have ha : (BitVec.ofNat 16 (0x0100 + 4 * t.val)).toNat = 0x0100 + 4 * t.val := by
    rw [BitVec.toNat_ofNat]; exact Nat.mod_eq_of_lt (by omega)
  refine locate_mapped (by omega) ?_
  rw [ha]; unfold mapped
  rw [if_neg (by omega), if_neg (by omega), if_neg (by omega), if_pos (by omega)]
  refine congrArg (fun t => some (Location.sched t)) (Fin.ext ?_)
  show (0x0100 + 4 * t.val - 0x0100) / 4 % 80 = t.val
  omega

/-- A stable register: where its offset leads and what it reads as. -/
theorem locate_stable {s : State} {a : Addr} {x : Word} (h : (a, x) ∈ s.stableRegisters) (n : Nat) :
    ∃ loc, locate n a = .ok loc ∧ loc.volatile = false ∧ readLocation s loc = x := by
  simp only [State.stableRegisters, List.mem_cons, Prod.mk.injEq, List.not_mem_nil, or_false] at h
  rcases h with h | h | h | h | h | h <;> obtain ⟨rfl, rfl⟩ := h
  · exact ⟨.id, rfl, rfl, rfl⟩
  · exact ⟨.bufsize, rfl, rfl, rfl⟩
  · exact ⟨.cmd, rfl, rfl, rfl⟩
  · exact ⟨.status, rfl, rfl, rfl⟩
  · exact ⟨.msglenLo, rfl, rfl, rfl⟩
  · exact ⟨.msglenHi, rfl, rfl, rfl⟩

/-- H0..H4: where the offset leads and what it reads as. -/
theorem locate_hash {s : State} {a : Addr} {x : Word} (h : (a, x) ∈ s.hashRegisters) (n : Nat) :
    ∃ i, locate n a = .ok (.hash i) ∧ readLocation s (.hash i) = x := by
  simp only [State.hashRegisters, List.mem_cons, Prod.mk.injEq, List.not_mem_nil, or_false] at h
  rcases h with h | h | h | h | h <;> obtain ⟨rfl, rfl⟩ := h
  · exact ⟨0, rfl, rfl⟩
  · exact ⟨1, rfl, rfl⟩
  · exact ⟨2, rfl, rfl⟩
  · exact ⟨3, rfl, rfl⟩
  · exact ⟨4, rfl, rfl⟩

/-- The locations of the volatile registers that the host may only read. -/
def Location.resultRegister : Location → Bool
  | .padlenLo => true
  | .padlenHi => true
  | .cmpcnt => true
  | .treg => true
  | .work _ => true
  | .sched _ => true
  | .id => false
  | .bufsize => false
  | .cmd => false
  | .status => false
  | .msglenLo => false
  | .msglenHi => false
  | .hash _ => false
  | .bufWord _ => false

theorem Location.volatile_of_resultRegister {loc : Location} (h : loc.resultRegister = true) : loc.volatile = true := by
  cases loc <;> simp_all [Location.resultRegister, Location.volatile]

theorem Location.ne_status_of_resultRegister {loc : Location} (h : loc.resultRegister = true) : loc ≠ .status := by
  cases loc <;> simp_all [Location.resultRegister]

theorem writeIdle_of_resultRegister {loc : Location} (h : loc.resultRegister = true) (x : Word) (s : State) :
    writeIdle x s loc = takeHostError .writeRo s := by
  cases loc <;> first | rfl | cases h

/-- PADLEN, CMPCNT and TREG: where the offset leads and what it reads as. -/
theorem locate_count {s : State} {a : Addr} {x : Word} (h : (a, x) ∈ s.countRegisters) (n : Nat) :
    ∃ loc, locate n a = .ok loc ∧ loc.resultRegister = true ∧ readLocation s loc = x := by
  simp only [State.countRegisters, List.mem_cons, Prod.mk.injEq, List.not_mem_nil, or_false] at h
  rcases h with h | h | h | h <;> obtain ⟨rfl, rfl⟩ := h
  · exact ⟨.padlenLo, rfl, rfl, rfl⟩
  · exact ⟨.padlenHi, rfl, rfl, rfl⟩
  · exact ⟨.cmpcnt, rfl, rfl, rfl⟩
  · exact ⟨.treg, rfl, rfl, BitVec.eq_of_toNat_eq (by simp [readLocation])⟩

/-- A..E: where the offset leads and what it reads as. -/
theorem locate_work {s : State} {a : Addr} {x : Word} (h : (a, x) ∈ s.workRegisters) (n : Nat) :
    ∃ i, locate n a = .ok (.work i) ∧ readLocation s (.work i) = x := by
  simp only [State.workRegisters, List.mem_cons, Prod.mk.injEq, List.not_mem_nil, or_false] at h
  rcases h with h | h | h | h | h <;> obtain ⟨rfl, rfl⟩ := h
  · exact ⟨0, rfl, rfl⟩
  · exact ⟨1, rfl, rfl⟩
  · exact ⟨2, rfl, rfl⟩
  · exact ⟨3, rfl, rfl⟩
  · exact ⟨4, rfl, rfl⟩

/-- W[0..79]: where the offset leads and what it reads as. -/
theorem locate_schedule {s : State} {a : Addr} {x : Word} (h : (a, x) ∈ s.scheduleRegisters) (n : Nat) :
    ∃ t, locate n a = .ok (.sched t) ∧ readLocation s (.sched t) = x := by
  obtain ⟨t, -, e⟩ := List.mem_map.1 h
  cases e
  exact ⟨t, locate_sched n t, rfl⟩

/-- A read-only volatile register: where its offset leads and what it reads as. -/
theorem locate_result {s : State} {a : Addr} {x : Word} (h : (a, x) ∈ s.resultRegisters) (n : Nat) :
    ∃ loc, locate n a = .ok loc ∧ loc.resultRegister = true ∧ readLocation s loc = x := by
  rw [State.resultRegisters, List.mem_append, List.mem_append] at h
  rcases h with (h | h) | h
  · exact locate_count h n
  · obtain ⟨i, hl, hr⟩ := locate_work h n
    exact ⟨.work i, hl, rfl, hr⟩
  · obtain ⟨t, hl, hr⟩ := locate_schedule h n
    exact ⟨.sched t, hl, rfl, hr⟩

/-- A host write leaves the parameter and the turns still scheduled. -/
theorem hostWrite_frame (a : Addr) (x : Word) (s : State) :
    (hostWrite a x s).capacity = s.capacity ∧ (hostWrite a x s).script = s.script := by
  rcases hostWrite_cases a x s with ⟨e, -, h⟩ | ⟨-, h⟩ | ⟨loc, -, -, -, h⟩ | ⟨loc, -, -, -, h⟩
  · rw [h]; exact ⟨rfl, rfl⟩
  · rw [h]; exact ⟨rfl, rfl⟩
  · rw [h]; exact ⟨rfl, rfl⟩
  · rw [h]; cases loc <;> exact ⟨rfl, rfl⟩

end Sys2Proof.Machine
end

