-- ==== Sys2Proof/Laws/PerInstr.lean ====
section
/-! SUPPORT. Statements about every command as syntax, one lemma per constructor. -/

namespace Sys2Proof.Laws

/-- The two fields of a well-formed command's word are its opcode and its operand (30_encoding.md R80, R81). -/
def WordFields.Statement (i : Instr) : Prop :=
  WellFormed i = true → opcField (encode i) = opcodeOf i ∧ argField (encode i) = argOf i

/-- The two fields, read off the word as a number. -/
theorem wordFields_of_bounds {i : Instr} (ho : opcodeOf i < 256) : WordFields.Statement i := by
  intro h
  rw [opcField_eq, argField_eq, encode_toNat i h]
  omega

theorem WordFields.nop : WordFields.Statement .nop := wordFields_of_bounds (by decide)
theorem WordFields.init : WordFields.Statement .init := wordFields_of_bounds (by decide)
theorem WordFields.pad : WordFields.Statement .pad := wordFields_of_bounds (by decide)
theorem WordFields.expand (j : Nat) : WordFields.Statement (.expand j) := wordFields_of_bounds (by simp [opcodeOf])
theorem WordFields.loadwv : WordFields.Statement .loadwv := wordFields_of_bounds (by decide)
theorem WordFields.round : WordFields.Statement .round := wordFields_of_bounds (by decide)
theorem WordFields.accum : WordFields.Statement .accum := wordFields_of_bounds (by decide)
theorem WordFields.compress (j : Nat) : WordFields.Statement (.compress j) := wordFields_of_bounds (by simp [opcodeOf])
theorem WordFields.digest : WordFields.Statement .digest := wordFields_of_bounds (by decide)

end Sys2Proof.Laws
end

