-- ==== Sys2Proof/Tests/Slice0.lean ====
section
/-! SUPPORT. The model's own tests. Every expected value is the spec's: a worked example, a table or a vector, named at the
test. The theorems `witness_…` show for each obligation a state and operands that meet its hypotheses. -/

namespace Sys2Proof.Tests

/-! One theorem after another: many at once hold a thread each and can fill the sandbox. -/

set_option Elab.async false

open Sys2Proof Sys2Proof.Machine

/-! Small states -/

/-- An idle instance with BUF_BYTES = 128 and these turns scheduled. -/
def idle (script : List Turn) : State := { State.reset with capacity := 1, script := script }

/-- The same with a command accepted. -/
def busy (word : Word) (script : List Turn) : State := accept word (idle script)

/-- BUF holds these bytes from byte 0, and MSGLEN their number. -/
def holding (bytes : List Byte) : State :=
  { idle [] with buf := bytes.zipIdx.map (fun c => (c.2, c.1)), msglen := BitVec.ofNat 64 bytes.length }

/-- The message "abc". -/
def abc : State := holding [0x61, 0x62, 0x63]

/-- The state a command or a step answers. -/
def after : Host.Outcome State Fault Refusal → State
  | .next s => s
  | .fault f => nomatch f
  | .refused _ => idle []

/-- A next state. -/
def goesOn : Host.Outcome State Fault Refusal → Bool
  | .next _ => true
  | .fault _ => false
  | .refused _ => false

/-! WellFormed: the block index is the only field (30_encoding.md R82) -/

theorem test_expand_index_too_large : WellFormed (.expand (2 ^ 24)) = false := by decide
theorem test_compress_index_too_large : WellFormed (.compress (2 ^ 24)) = false := by decide
theorem test_largest_index : WellFormed (.expand (2 ^ 24 - 1)) = true ∧ WellFormed (.compress (2 ^ 24 - 1)) = true := by
  decide

/-! Decoding: words written out as ARG in bits 31:8 and OPC in bits 7:0 (30_encoding.md R80, R81) -/

theorem test_decode_nop : decode 0b000000000000000000000000_00000000 = .ok .nop := by decide
theorem test_decode_init : decode 0b000000000000000000000000_00000001 = .ok .init := by decide
theorem test_decode_pad : decode 0b000000000000000000000000_00000010 = .ok .pad := by decide
theorem test_decode_expand : decode 0b000000000000000100000000_00000011 = .ok (.expand 256) := by decide
theorem test_decode_loadwv : decode 0b000000000000000000000000_00000100 = .ok .loadwv := by decide
theorem test_decode_round : decode 0b000000000000000000000000_00000101 = .ok .round := by decide
theorem test_decode_accum : decode 0b000000000000000000000000_00000110 = .ok .accum := by decide
theorem test_decode_compress : decode 0b100000000000000000000001_00000111 = .ok (.compress 8388609) := by decide
theorem test_decode_digest : decode 0b000000000000000000000000_00001000 = .ok .digest := by decide

/-- 30_encoding.md R84 (a): reserved opcodes, at both ends of 0x09 .. 0xFF. -/
theorem test_decode_reserved :
    decode 0b000000000000000000000000_00001001 = .error .reservedOpcode ∧
    decode 0b111111111111111111111111_11111111 = .error .reservedOpcode := by decide

/-- 30_encoding.md R83, R84 (b): ARG must be 0, at both ends of ARG. -/
theorem test_decode_nonzero_arg :
    decode 0b000000000000000000000001_00000000 = .error .nonzeroArg ∧
    decode 0b100000000000000000000000_00001000 = .error .nonzeroArg := by decide

/-- The encodings of 30_encoding.md R88. -/
theorem test_encode : encode (.expand 1) = 0x00000103 ∧ encode (.compress 0) = 0x00000007 ∧
    encode (.compress 1) = 0x00000107 ∧ encode .digest = 0x00000008 := by decide

theorem test_table_word : decodeTableWord 32 0x0001FF03 = some (.expand 511) ∧ decodeTableWord 32 0x109 = none := by decide

/-- The first step after reset runs the word. -/
theorem test_fetch_runs_next :
    goesOn (step (State.reset.withFetchWord 32 0x08)) = true ∧
    (after (step (State.reset.withFetchWord 32 0x04))).v.a = 0x67452301 ∧
    (after (step (State.reset.withFetchWord 32 0x04))).status.toWord = 0x00000002 := by decide

/-! The commands -/

/-- 43_digest.md R154, worked example: STATUS 0x00000036, then NOP gives 0x00000002. -/
theorem test_nop :
    (accept 0 { idle [] with status := ⟨false, true, true, false, 3, 0⟩ }).status.toWord = 0x00000001 ∧
    Status.toWord ⟨false, true, true, false, 3, 0⟩ = 0x00000036 ∧
    (after (exec .nop { idle [] with status := ⟨true, false, false, false, 0, 0⟩ })).status.toWord = 0x00000002 := by decide

/-- 43_digest.md R151, worked example. -/
theorem test_init :
    let s := after (exec .init { idle [] with h := ⟨0xDEADBEEF, 0, 0, 0, 0⟩, cmpcnt := 5, t := 80 })
    s.h = ⟨0x67452301, 0xEFCDAB89, 0x98BADCFE, 0x10325476, 0xC3D2E1F0⟩ ∧ s.cmpcnt = 0 ∧ s.t = 81 := by decide

/-- 40_padder.md R99, worked example, and corner case (c): L = 56 needs two blocks. -/
theorem test_pad :
    let s := after (exec .pad abc)
    let u := after (exec .pad { idle [] with msglen := 56 })
    s.padlen = 64 ∧ readWord s 0 = 0x61626380 ∧ readWord s 4 = 0 ∧ readWord s 56 = 0 ∧ readWord s 60 = 0x00000018 ∧
    u.padlen = 128 ∧ readByte u 56 = 0x80 ∧ readByte u 119 = 0 ∧ readWord u 120 = 0 ∧ readWord u 124 = 0x000001C0 := by
  decide +kernel

/-- 95_test_vectors.md section 2.3 with BUF_BYTES = 128: L = 119 fits, L = 120 is ALLOC_FAILURE, L = 2^61 is
INPUT_TOO_LARGE. -/
theorem test_pad_errors :
    (after (exec .pad { idle [] with msglen := 119 })).status.toWord = 0x00000002 ∧
    (after (exec .pad { idle [] with msglen := 120 })).status.toWord = 0x00000046 ∧
    (after (exec .pad { idle [] with msglen := 0x1FFFFFFFFFFFFFFF })).status.toWord = 0x00000046 ∧
    (after (exec .pad { idle [] with msglen := 0x2000000000000000 })).status.toWord = 0x00000036 := by decide

/-- 41_expander.md R112, corner case (c): j = BUF_BYTES / 64 is BLOCK_RANGE. -/
theorem test_expand_range :
    (after (exec (.expand 1) (idle []))).status.toWord = 0x00000002 ∧
    (after (exec (.expand 2) (idle []))).status.toWord = 0x00000026 := by decide

/-- 42_compression.md R126, worked example. -/
theorem test_loadwv :
    (after (exec .loadwv (idle []))).v = ⟨0x67452301, 0xEFCDAB89, 0x98BADCFE, 0x10325476, 0xC3D2E1F0⟩ ∧
    (after (exec .loadwv (idle []))).t = 0 := by decide

/-- 42_compression.md R127, corner cases (c) and (d). -/
theorem test_round :
    (after (exec .round { idle [] with
      v := ⟨0xFFFFFFFF, 0xFFFFFFFF, 0xFFFFFFFF, 0xFFFFFFFF, 0xFFFFFFFF⟩
      t := 0
      w := Vector.replicate 80 0xFFFFFFFF })).v =
      ⟨0x5A827995, 0xFFFFFFFF, 0xFFFFFFFF, 0xFFFFFFFF, 0xFFFFFFFF⟩ ∧
    (after (exec .round { idle [] with t := 40 })).v = ⟨0x8F1BBCDC, 0, 0, 0, 0⟩ := by decide +kernel

/-- 42_compression.md R127, worked example: the first round of "abc". -/
theorem test_round_abc :
    let s := after (exec .round { idle [] with
      v := ⟨0x67452301, 0xEFCDAB89, 0x98BADCFE, 0x10325476, 0xC3D2E1F0⟩
      t := 0
      w := Vector.replicate 80 0x61626380 })
    s.v = ⟨0x0116FC33, 0x67452301, 0x7BF36AE2, 0x98BADCFE, 0x10325476⟩ ∧ s.t = 1 := by decide +kernel

/-- 42_compression.md R128, corner cases (a) and (b). -/
theorem test_accum :
    let s := after (exec .accum { idle [] with
      h := ⟨0xFFFFFFFF, 0x80000000, 0, 1, 0x12345678⟩
      v := ⟨1, 0x80000000, 0, 0xFFFFFFFF, 0xEDCBA988⟩
      t := 80
      cmpcnt := 0xFFFFFFFF })
    s.h = ⟨0, 0, 0, 0, 0⟩ ∧ s.cmpcnt = 0 ∧ s.t = 81 ∧ s.status.toWord = 0x00000002 := by decide

/-- 42_compression.md R128: ACCUM fails before the 80 rounds have run, and again after it has accumulated (T = 81). -/
theorem test_accum_sequence :
    (after (exec .accum { idle [] with t := 79 })).status.toWord = 0x00000056 ∧
    (after (exec .accum (idle []))).status.toWord = 0x00000056 := by decide

/-! The host -/

/-- The reset column of 10_state.md section 2 and R36, R37. -/
theorem test_reset_reads :
    (answerRead 0x0000 (idle [])).1 = 0x53484131 ∧ (answerRead 0x0004 (idle [])).1 = 128 ∧
    (answerRead 0x0008 (idle [])).1 = 0 ∧ (answerRead 0x000C (idle [])).1 = 0 ∧
    (answerRead 0x0024 (idle [])).1 = 0x00000051 ∧ (answerRead 0x0040 (idle [])).1 = 0xC3D2E1F0 ∧
    (answerRead 0x023C (idle [])).1 = 0 := by decide

/-- 20_memory.md R53, R54: big-endian, in the last word of BUF. -/
theorem test_buf_word :
    let s := hostWrite 0x807C 0x61626364 (idle [])
    readByte s 124 = 0x61 ∧ readByte s 127 = 0x64 ∧ (answerRead 0x807C s).1 = 0x61626364 ∧ s.status.toWord = 0 := by
  decide

/-- 60_exceptions.md R173 to R175: each cause, and the first one is kept. -/
theorem test_host_errors :
    (hostWrite 0x0001 0 (busy 0 [])).status.toWord = 0x00000109 ∧
    (hostWrite 0x8080 0 (idle [])).status.toWord = 0x00000208 ∧
    (hostWrite 0x0010 0 (busy 0 [])).status.toWord = 0x00000309 ∧
    (hostWrite 0x0024 0 (idle [])).status.toWord = 0x00000408 ∧
    (hostWrite 0x0024 0 (hostWrite 0x0028 0 (idle []))).status.toWord = 0x00000208 := by decide

/-- 43_digest.md R155: the words of the "abc" digest, most significant byte first. -/
theorem test_digest_bytes :
    let h : HashState := ⟨0xA9993E36, 0x4706816A, 0xBA3E2571, 0x7850C26C, 0x9CD0D89D⟩
    h.toBits = 0xA9993E364706816ABA3E25717850C26C9CD0D89D ∧ h.toBytes.take 5 = [0xA9, 0x99, 0x3E, 0x36, 0x47] ∧
    h.toBytes.getLast? = some 0x9D := by decide

/-- 30_encoding.md R87 and 43_digest.md R156: the lines `loadmsg "abc"`, `exec NOP` and `clr` as turns; the polls read
BUSY = 1, then DONE. -/
theorem test_host_program :
    Notation.loadmsg [0x61, 0x62, 0x63] = [.write 0x8000 0x61626300, .write 0x0010 3, .write 0x0014 0] ∧
    (after (Sys2Proof.core.run 5 (idle (Notation.execute 1 .nop ++ Notation.clr)))).reads =
      [(0x000C, 0x00000002), (0x000C, 0x00000001)] ∧
    (after (Sys2Proof.core.run 5 (idle (Notation.execute 1 .nop ++ Notation.clr)))).status.toWord = 0 := by decide

/-- 30_encoding.md R87's own example of a literal, `exec 0x09`: the last poll reads ILLEGAL_CMD (95_test_vectors.md section
2.3). Two ROUNDs with 0 and 1 polls. -/
theorem test_host_program_literal :
    (after (Sys2Proof.core.run 3 (idle (Notation.executeWord 0 0x09)))).reads = [(0x000C, 0x00000016)] ∧
    Notation.rounds id 2 =
      [.write 0x0008 0x05, .core, .read 0x000C, .write 0x0008 0x05, .read 0x000C, .core, .read 0x000C] := by decide

/-! Witnesses: a state and operands that meet all hypotheses of an obligation, clause by clause at the ends of its range -/

theorem witness_DecoderFollowsOpcodeMap :
    ((0x00000008 : Word).toNat % 256 = 0x08 ∧ (0x00000008 : Word).toNat / 256 = 0) ∧
    ((0xFFFFFF00 : Word).toNat % 256 = 0x00 ∧ (0xFFFFFF00 : Word).toNat / 256 ≠ 0) ∧
    (0xFFFFFF03 : Word).toNat % 256 = 0x03 ∧ (0x00000007 : Word).toNat % 256 = 0x07 ∧
    0x09 ≤ (0x00000009 : Word).toNat % 256 ∧ 0x09 ≤ (0xFFFFFFFF : Word).toNat % 256 ∧
    (busy 0x09 []).coreIsNext ∧ (busy 0x09 []).status.busy = true ∧
    decode (busy 0x09 []).pending = .error .reservedOpcode := by decide

theorem witness_DecodeEncodeRoundTrip : WellFormed (.compress (2 ^ 24 - 1)) = true ∧ WellFormed .digest = true := by decide

theorem witness_LegalWordIsUnique : decode 0xFFFFFF07 = .ok (.compress (2 ^ 24 - 1)) := by decide

theorem witness_FetchedWordRunsNext : WellFormed (.expand 0) = true := by decide

theorem witness_CoreStepRunsDecodedCommand :
    (busy 5 [.core]).coreIsNext ∧ (busy 5 [.core]).status.busy = true ∧ decode (busy 5 [.core]).pending = .ok .round ∧
    (busy 5 []).coreIsNext := by decide

theorem witness_IllegalWordReportsIllegalCmd :
    (busy 0xFF [.core]).coreIsNext ∧ (busy 0xFF [.core]).status.busy = true ∧
    0x09 ≤ (busy 0xFF [.core]).pending.toNat % 256 ∧
    ((busy 0x102 []).pending.toNat % 256 ∈ [0x00, 0x01, 0x02, 0x04, 0x05, 0x06, 0x08] ∧
      (busy 0x102 []).pending.toNat / 256 ≠ 0) := by decide

theorem witness_IdleCoreKeepsState : (idle []).coreIsNext ∧ (idle []).status.busy = false := by decide

theorem witness_CoreStepCompletesCommand : (busy 8 []).coreIsNext ∧ (busy 8 []).status.busy = true := by decide

theorem witness_RoundResult :
    ({ idle [] with t := 79 } : State).t.toNat = 79 ∧ ({ idle [] with t := 0 } : State).t.toNat = 0 := by decide

theorem witness_RoundSelectionFollowsTable :
    (19 ≤ 19) ∧ (20 ≤ 20 ∧ 39 ≤ 39) ∧ (40 ≤ 40 ∧ 59 ≤ 59) ∧ 60 ≤ 60 ∧ 79 ≤ 79 := by decide

theorem witness_AccumResult : ({ idle [] with t := 80 } : State).t.toNat = 80 := by decide

theorem witness_SequenceErrors :
    79 < ({ idle [] with t := 80 } : State).t.toNat ∧ ({ idle [] with t := 79 } : State).t.toNat ≠ 80 ∧
    (idle []).t.toNat ≠ 80 := by decide

theorem witness_ExpandResult : 64 * 1 + 64 ≤ (idle []).bufBytes := by decide

/-- Two states that differ in T, and two equal blocks of one buffer. -/
theorem witness_ScheduleDependsOnlyOnBlock :
    let s := holding (List.replicate 128 0)
    let s' := { s with t := 7 }
    64 * 0 + 64 ≤ s.bufBytes ∧ 64 * 1 + 64 ≤ s'.bufBytes ∧ goesOn (exec (.expand 0) s) = true ∧
    goesOn (exec (.expand 1) s') = true ∧ s.block 0 = s'.block 1 ∧
    (after (exec (.expand 0) s)).w[15] = (after (exec (.expand 1) s')).w[15] := by decide +kernel

theorem witness_BlockRangeErrors :
    (idle []).bufBytes < 64 * 2 + 64 ∧ (idle []).bufBytes < 64 * (2 ^ 24 - 1) + 64 := by decide

/-- L = BUF_BYTES - 9, the largest, and L = 0. -/
theorem witness_PadResult :
    let s := { idle [] with msglen := 119 }
    (119 = s.msglen.toNat ∧ 128 = 64 * ((119 + 72) / 64) ∧ 119 < 2 ^ 61 ∧ 128 ≤ s.bufBytes) ∧
    0 = (idle []).msglen.toNat ∧ 64 = 64 * ((0 + 72) / 64) ∧ 64 ≤ (idle []).bufBytes := by decide

theorem witness_PadCheckErrors :
    2 ^ 61 ≤ ({ idle [] with msglen := 0x2000000000000000 } : State).msglen.toNat ∧
    (let s : State := { idle [] with msglen := 120 };
      s.msglen.toNat < 2 ^ 61 ∧ s.bufBytes < 64 * ((s.msglen.toNat + 72) / 64)) := by decide

theorem witness_PaddedBufferProperties :
    let s := { idle [] with msglen := 56 }
    let s' := { idle [] with msglen := 55 }
    (56 = s.msglen.toNat ∧ 56 < 2 ^ 61 ∧ 64 * ((56 + 72) / 64) ≤ s.bufBytes ∧ 56 ≤ 56 % 64) ∧
    55 = s'.msglen.toNat ∧ 64 * ((55 + 72) / 64) ≤ s'.bufBytes ∧ 55 % 64 ≤ 55 ∧ 128 % 64 = 0 ∧ 55 + 9 ≤ 128 := by decide

theorem witness_PadLengthExceedsReferenceFormula : 55 % 64 ≤ 55 ∧ 56 ≤ 56 % 64 ∧ 56 ≤ 127 % 64 := by decide

theorem witness_CompressResult : 64 * 1 + 64 ≤ (idle []).bufBytes := by decide

theorem witness_CompressEqualsSingleSteps : 64 * 0 + 64 ≤ (idle []).bufBytes := by decide

theorem witness_CompressDependsOnlyOnHashAndBlock :
    let s := holding (List.replicate 128 0)
    let s' := { s with t := 7 }
    64 * 0 + 64 ≤ s.bufBytes ∧ 64 * 1 + 64 ≤ s'.bufBytes ∧ s.h = s'.h ∧ s.block 0 = s'.block 1 ∧
    goesOn (exec (.compress 0) s) = true ∧ goesOn (exec (.compress 1) s') = true := by decide +kernel

theorem witness_DigestComputesSha1 :
    ({ idle [] with msglen := 119 } : State).msglen.toNat + 9 ≤ ({ idle [] with msglen := 119 } : State).bufBytes := by
  decide

theorem witness_DigestEndState :
    let s : State := { idle [] with msglen := 56 }
    128 = 64 * ((s.msglen.toNat + 72) / 64) ∧ s.msglen.toNat < 2 ^ 61 ∧ 128 ≤ s.bufBytes := by decide

theorem witness_DigestEqualsInitPadCompress :
    64 = 64 * ((abc.msglen.toNat + 72) / 64) ∧ abc.msglen.toNat < 2 ^ 61 ∧ 64 ≤ abc.bufBytes := by decide

theorem witness_DigestTwiceGivesSameState :
    Memory.wf abc.bufBytes abc.buf = true ∧ padCheck abc = none ∧ goesOn (exec .digest abc) = true := by decide

theorem witness_PadAndExpandAreIdempotent :
    Memory.wf abc.bufBytes abc.buf = true ∧ goesOn (exec .pad abc) = true ∧ goesOn (exec (.expand 1) abc) = true := by
  decide

theorem witness_CommandErrorsArePrecise :
    ∃ t, exec .accum (idle []) = .next t ∧ t.status.err = true := ⟨_, rfl, rfl⟩

/-- One command for each clause: a state where it does write. -/
theorem witness_CommandsWriteOnlyTheirRegisters :
    (let s := { idle [] with t := 80, v := ⟨1, 1, 1, 1, 1⟩ };
      (after (exec .accum s)).h ≠ s.h ∧ (after (exec .accum s)).cmpcnt ≠ s.cmpcnt) ∧
    (after (exec .loadwv abc)).v ≠ abc.v ∧
    (after (exec (.expand 0) (holding (List.replicate 64 1)))).w ≠ (holding (List.replicate 64 1)).w ∧
    (after (exec .loadwv abc)).t ≠ abc.t ∧
    (let s := holding [0x61, 0x62, 0x63, 0];
      (after (exec .pad { s with msglen := 3 })).padlen ≠ s.padlen ∧
      readByte (after (exec .pad { s with msglen := 3 })) 3 ≠ readByte s 3) := by decide +kernel

theorem witness_RoundsRunToEighty : 80 ≤ 80 ∧ 0 ≤ 80 := by decide

theorem witness_BlockCountFollowsCommands :
    (∃ t, exec .digest abc = .next t ∧ t.status.err = false) ∧
    ∀ i ∈ [Instr.compress 0, .compress 9, .pad, .accum], i ≠ .init ∧ i ≠ .digest := by
  refine ⟨⟨_, exec_of_passes (by decide), ?_⟩, by decide⟩
  rw [succeed_status]; rfl

theorem witness_StatusWriteClears : (busy 0 [.write 0x000C 0x0000000E]).script = .write 0x000C 0x0000000E :: [] := by decide

theorem witness_CommandAcceptance :
    (idle [.read 0x0008]).script = .read 0x0008 :: [] ∧
    ((idle [.write 0x0008 8]).script = .write 0x0008 8 :: [] ∧ (idle [.write 0x0008 8]).status.busy = false) ∧
    (busy 0 [.write 0x0008 8]).script = .write 0x0008 8 :: [] ∧ (busy 0 [.write 0x0008 8]).status.busy = true := by decide

/-- The first and the last word of BUF. -/
theorem witness_BufWordRead :
    (4 * 0 < (idle [.read 0x8000]).bufBytes ∧ (0x8000 : Addr) = BitVec.ofNat 16 (0x8000 + 4 * 0) ∧
      (idle [.read 0x8000]).script = .read 0x8000 :: [] ∧ (idle [.read 0x8000]).status.busy = false) ∧
    4 * 31 < (busy 0 [.read 0x807C]).bufBytes ∧ (0x807C : Addr) = BitVec.ofNat 16 (0x8000 + 4 * 31) ∧
    (busy 0 [.read 0x807C]).script = .read 0x807C :: [] ∧ (busy 0 [.read 0x807C]).status.busy = true := by decide

/-- The first register and the last. -/
theorem witness_RegisterReads :
    (let s := idle [.read 0x0000];
      s.script = .read 0x0000 :: [] ∧ s.status.busy = false ∧
      (0x0000, 0x53484131) ∈ s.stableRegisters ++ s.hashRegisters ++ s.resultRegisters) ∧
    (let s := idle [.read 0x023C];
      s.script = .read 0x023C :: [] ∧ s.status.busy = false ∧
      (0x023C, 0) ∈ s.stableRegisters ++ s.hashRegisters ++ s.resultRegisters) := by decide +kernel

theorem witness_BusyReads :
    (let s := busy 0 [.read 0x0030];
      s.script = .read 0x0030 :: [] ∧ s.status.busy = true ∧ (0x0030, 0x67452301) ∈ s.hashRegisters ++ s.resultRegisters) ∧
    (let s := busy 0 [.read 0x807C];
      s.script = .read 0x807C :: [] ∧
      (0x8000 ≤ (0x807C : Addr).toNat ∧ (0x807C : Addr).toNat < 0x8000 + s.bufBytes ∧ (0x807C : Addr).toNat % 4 = 0)) ∧
    (let s := busy 0 [.read 0x000C];
      s.script = .read 0x000C :: [] ∧ (0x000C, 1) ∈ s.stableRegisters) := by decide +kernel

theorem witness_BufWordWrite :
    (4 * 31 < (idle [.write 0x807C 1]).bufBytes ∧
      (idle [.write 0x807C 1]).script = .write (BitVec.ofNat 16 (0x8000 + 4 * 31)) 1 :: [] ∧
      (idle [.write 0x807C 1]).status.busy = false) ∧
    4 * 0 < (busy 0 [.write 0x8000 1]).bufBytes ∧
    (busy 0 [.write 0x8000 1]).script = .write (BitVec.ofNat 16 (0x8000 + 4 * 0)) 1 :: [] ∧
    (busy 0 [.write 0x8000 1]).status.busy = true := by decide

/-- A writable register, both read-only kinds, and a busy write; no offset stands under two clauses that disagree. -/
theorem witness_RegisterWrites :
    (let s := idle [.write 0x0040 9];
      s.script = .write 0x0040 9 :: [] ∧ s.status.busy = false) ∧
    (let s := idle [.write 0x023C 9];
      s.script = .write 0x023C 9 :: [] ∧ s.status.busy = false ∧ (0x023C : Addr) ∈ s.resultRegisters.map Prod.fst) ∧
    (let s := busy 0 [.write 0x0060 9];
      s.script = .write 0x0060 9 :: [] ∧ s.status.busy = true ∧ (0x0060 : Addr) ≠ 0x000C ∧
      (0x0060 : Addr) ∈ (s.stableRegisters ++ s.hashRegisters ++ s.resultRegisters).map Prod.fst) ∧
    (((idle []).resultRegisters.map Prod.fst).all fun a => !([0x0000, 0x0004, 0x0008, 0x000C, 0x0010, 0x0014, 0x0030,
      0x0034, 0x0038, 0x003C, 0x0040] : List Addr).contains a) = true := by decide +kernel

/-- A misaligned offset, and both ends of each gap of the map of an instance of 128 bytes. -/
theorem witness_HostAccessErrors :
    ((0x0009 : Addr).toNat % 4 ≠ 0 ∧ (1 : BitVec 4) = 1) ∧
    (([0x0028, 0x002C, 0x0044, 0x004C, 0x0064, 0x00FC, 0x0240, 0x7FFC, 0x8080, 0xFFFC] : List Addr).all fun a =>
      decide (a.toNat % 4 = 0 ∧
        (0x0028 ≤ a.toNat ∧ a.toNat < 0x0030 ∨ 0x0044 ≤ a.toNat ∧ a.toNat < 0x0050 ∨
          0x0064 ≤ a.toNat ∧ a.toNat < 0x0100 ∨ 0x0240 ≤ a.toNat ∧ a.toNat < 0x8000 ∨
          0x8000 + (idle []).bufBytes ≤ a.toNat))) = true ∧
    (idle [.read 0x0009]).script = .read 0x0009 :: [] ∧ (idle [.write 0x8080 0]).script = .write 0x8080 0 :: [] := by
  decide

theorem witness_BusyBlocksHostAccesses :
    ((busy 0 [.read 0x0030]).status.busy = true ∧ (busy 0 [.read 0x0030]).script = .read 0x0030 :: []) ∧
    (busy 0 [.write 0x0010 1]).status.busy = true ∧ (busy 0 [.write 0x0010 1]).script = .write 0x0010 1 :: [] := by decide

theorem witness_LateWriteHasTwoOutcomes : (busy 8 []).status.busy = true := by decide

theorem witness_ResetStepLeavesResetValues : (busy 8 [.reset, .core]).script = .reset :: [.core] := by decide

theorem witness_StepKeepsInvariant :
    (busy 8 [.core]).Inv ∧ goesOn (step (busy 8 [.core])) = true := by decide

theorem witness_EveryCommandEnds : (busy 8 [.read 0x000C]).status.busy = true := by decide

theorem witness_CapacityNeverChanges : ∃ t, step (idle [.reset]) = .next t := ⟨_, step_reset rfl⟩

theorem witness_OnlyCmdWriteStartsCommand :
    (∃ t, step (idle [.write 0x0008 8]) = .next t ∧ (idle [.write 0x0008 8]).status.busy = false ∧ t.status.busy = true ∧
      t.pending ≠ (idle [.write 0x0008 8]).pending) ∧
    ∃ t, step (busy 8 [.reset]) = .next t ∧ t.pending ≠ (busy 8 [.reset]).pending :=
  ⟨⟨_, step_write rfl, rfl, rfl, by decide⟩, _, step_reset rfl, by decide⟩

/-! Whole blocks -/

/-- 41_expander.md R112, worked example: the schedule of the padded "abc" (95_test_vectors.md section 3). -/
theorem test_expand :
    let w := (after (exec (.expand 0) (after (exec .pad abc)))).w
    w[0] = 0x61626380 ∧ w[15] = 0x00000018 ∧ w[16] = 0xC2C4C700 ∧ w[19] = 0x85898E01 ∧ w[79] = 0x822E0879 := by
  decide +kernel

/-- 42_compression.md R129, worked example: the padded "abc" from H = IV. -/
theorem test_compress :
    let s := after (exec (.compress 0) (after (exec .pad abc)))
    s.h = ⟨0xA9993E36, 0x4706816A, 0xBA3E2571, 0x7850C26C, 0x9CD0D89D⟩ ∧ s.t = 81 ∧ s.cmpcnt = 1 := by decide +kernel

/-- 43_digest.md R152, worked example: the source's own vector "abc". -/
theorem test_digest :
    let s := after (exec .digest abc)
    s.h = ⟨0xA9993E36, 0x4706816A, 0xBA3E2571, 0x7850C26C, 0x9CD0D89D⟩ ∧ s.padlen = 64 ∧ s.cmpcnt = 1 := by
  decide +kernel

/-- 43_digest.md R152, corner case (a): the source's own vector of the empty message. -/
theorem test_digest_empty :
    (after (exec .digest (idle []))).h = ⟨0xDA39A3EE, 0x5E6B4B0D, 0x3255BFEF, 0x95601890, 0xAFD80709⟩ := by
  decide +kernel

end Sys2Proof.Tests
end

section
/-! The instance parameter (00_scope.md R5, 10_state.md R37): no part of a step writes it, hence no step does. -/

namespace Sys2Proof.Machine

/-- A command leaves the parameter, whether its check passes or not. -/
theorem exec_capacity {i : Instr} {s t : State} (h : exec i s = .next t) : t.capacity = s.capacity := by
  rcases exec_cases h with ⟨e, -, rfl⟩ | ⟨-, rfl⟩
  · exact raiseCmdError_capacity e s
  · obtain ⟨-, -, -, hcap, -⟩ := commandBody_frame i s
    rw [succeed_capacity, hcap]

/-- The core's turn leaves the parameter, idle turns and illegal words included. -/
theorem coreTurn_capacity {s t : State} (h : coreTurn s = .next t) : t.capacity = s.capacity := by
  rcases coreTurn_cases s with ⟨-, hidle⟩ | ⟨-, -, hillegal⟩ | ⟨-, i, -, hexec⟩
  · cases hidle.symm.trans h; rfl
  · cases hillegal.symm.trans h; exact raiseCmdError_capacity .illegalCmd s
  · exact exec_capacity (hexec.symm.trans h)

/-- A host read leaves the parameter: it writes no more than STATUS and the model's own record. -/
theorem hostRead_capacity (a : Addr) (s : State) : (hostRead a s).capacity = s.capacity := by
  rcases hostRead_cases a s with ⟨e, -, h⟩ | ⟨loc, -, -, -, h⟩ | ⟨loc, -, -, h⟩
  · rw [h]; exact takeHostError_capacity e s
  · rw [h]
  · rw [h]

/-- Every turn of the host or the core leaves the parameter. -/
theorem step_capacity {s t : State} (h : step s = .next t) : t.capacity = s.capacity := by
  rw [← afterTurn_capacity s]
  rcases step_cases h with ⟨-, hcore⟩ | ⟨a, rest, -, rfl⟩ | ⟨a, x, rest, -, rfl⟩ | ⟨rest, -, rfl⟩
  · exact coreTurn_capacity hcore
  · exact hostRead_capacity a s.afterTurn
  · exact (hostWrite_frame a x s.afterTurn).1
  · exact resetStep_capacity s.afterTurn

/-- Settles O53: BUF_BYTES is computed from the parameter alone, which every turn leaves. -/
theorem capacityNeverChanges : Obligations.CapacityNeverChanges := by
  intro s t h
  rw [State.bufBytes, State.bufBytes, step_capacity h]

end Sys2Proof.Machine
end

section
/-! The invariant of every step: STATUS stays coherent, then the parts of a turn one by one, then the step. -/

namespace Sys2Proof.Machine

/-- A completion with an ERRCODE of 60_exceptions.md R165 leaves STATUS coherent (10_state.md R34). -/
theorem coherent_completed {st : Status} (h : st.Coherent) {code : BitVec 4} (hc : code.toNat ≤ 5) :
    (st.completed code).Coherent := by
  obtain ⟨-, hherr, -, hcause, -⟩ := h
  exact ⟨rfl, hherr, hc, hcause, by simp [Status.completed]⟩

/-- The acceptance of a command leaves STATUS coherent (10_state.md R33). -/
theorem coherent_accepted {st : Status} (h : st.Coherent) : st.accepted.Coherent := by
  obtain ⟨-, hherr, -, hcause, -⟩ := h
  exact ⟨rfl, hherr, Nat.zero_le 5, hcause, fun _ => ⟨rfl, rfl⟩⟩

/-- A write of STATUS clears a flag together with its code (10_state.md R32). -/
theorem coherent_clearedBy {st : Status} (h : st.Coherent) (x : Word) : (st.clearedBy x).Coherent := by
  obtain ⟨herr, hherr, hcode, hcause, hbusy⟩ := h
  refine ⟨?_, ?_, ?_, ?_, fun hb => ?_⟩
  · simp only [Status.clearedBy]; cases x.getLsbD 2 <;> simp [herr]
  · simp only [Status.clearedBy]; cases x.getLsbD 3 <;> simp [hherr]
  · simp only [Status.clearedBy]; cases x.getLsbD 2 <;> simp [hcode]
  · simp only [Status.clearedBy]; cases x.getLsbD 3 <;> simp [hcause]
  · obtain ⟨hd, he⟩ := hbusy hb
    simp [Status.clearedBy, hd, he]

/-- Every cause is one of the codes 1..4 (60_exceptions.md R173). -/
theorem HostError.cause_bounds (e : HostError) : e.cause ≠ 0 ∧ e.cause.toNat ≤ 4 := by cases e <;> decide

/-- Every command error has one of the codes 1..5 (60_exceptions.md R165). -/
theorem CmdError.code_le (e : CmdError) : e.code.toNat ≤ 5 := by cases e <;> decide

/-- A host-access error sets HERR with a cause, the first one staying (60_exceptions.md R174). -/
theorem coherent_afterHostError {st : Status} (h : st.Coherent) (e : HostError) :
    (st.afterHostError e.cause).Coherent := by
  obtain ⟨herr, hherr, hcode, hcause, hbusy⟩ := h
  have hnew : (st.afterHostError e.cause).herrCause ≠ 0 ∧ (st.afterHostError e.cause).herrCause.toNat ≤ 4 := by
    cases hst : st.herr with
    | true => simpa [Status.afterHostError, hst, hcause] using hherr
    | false => simpa [Status.afterHostError, hst] using e.cause_bounds
  obtain ⟨hne, hle⟩ := hnew
  exact ⟨herr, (bne_iff_ne.2 hne).symm, hcode, hle, hbusy⟩

/-- The invariant's clause about STATUS. -/
theorem State.Inv.coherent {s : State} (h : s.Inv) : s.status.Coherent := by
  obtain ⟨-, -, hst, -⟩ := h
  exact hst

/-- The invariant speaks of STATUS through its coherence alone. -/
theorem State.Inv.withStatus {s : State} (h : s.Inv) {st : Status} (hst : st.Coherent) :
    State.Inv { s with status := st } := by
  obtain ⟨hwf, ht, -, hmod, hle⟩ := h
  exact ⟨hwf, ht, hst, hmod, hle⟩

theorem inv_complete {s : State} (h : s.Inv) {code : BitVec 4} (hc : code.toNat ≤ 5) : (complete code s).Inv :=
  h.withStatus (coherent_completed h.coherent hc)

theorem inv_takeHostError {s : State} (h : s.Inv) (e : HostError) : (takeHostError e s).Inv := by
  rw [takeHostError_eq]
  exact h.withStatus (coherent_afterHostError h.coherent e)

theorem inv_writeStatus {s : State} (h : s.Inv) (x : Word) : (writeStatus x s).Inv :=
  h.withStatus (coherent_clearedBy h.coherent x)

theorem inv_accept {s : State} (h : s.Inv) (x : Word) : (accept x s).Inv :=
  State.Inv.withStatus (s := { s with pending := x }) h (coherent_accepted h.coherent)

/-- Two states with the same BUF, BUF_BYTES, STATUS and PADLEN differ for the invariant in T alone. -/
theorem State.Inv.withT {s t : State} (h : s.Inv) (ht : t.t.toNat ≤ 81) (hbuf : t.buf = s.buf)
    (hbytes : t.bufBytes = s.bufBytes) (hstatus : t.status = s.status) (hpadlen : t.padlen = s.padlen) : t.Inv := by
  obtain ⟨hwf, -, hst, hmod, hle⟩ := h
  refine ⟨?_, ht, ?_, ?_, ?_⟩
  · rwa [hbuf, hbytes]
  · rwa [hstatus]
  · rwa [hpadlen]
  · rwa [hpadlen, hbytes]

/-- PadCheck passes only where P(L) fits BUF (40_padder.md R97). -/
theorem padLength_le_of_padCheck {s : State} (h : padCheck s = none) : padLength s.msglen.toNat ≤ s.bufBytes := by
  have hfits := (padCheck_eq_none s).1 h
  have hp := padLength_bounds s.msglen.toNat
  have hb := bufBytes_bounds s
  omega

/-- PADLEN holds P(L) unreduced, because P(L) fits BUF. -/
theorem padBody_padlen_toNat {s : State} (h : padCheck s = none) :
    (padBody s).padlen.toNat = padLength s.msglen.toNat := by
  have hle := padLength_le_of_padCheck h
  have hb := bufBytes_bounds s
  rw [padBody_padlen, BitVec.toNat_ofNat]
  exact Nat.mod_eq_of_lt (by omega)

theorem inv_padBody {s : State} (h : s.Inv) (hc : padCheck s = none) : (padBody s).Inv := by
  obtain ⟨hwf, ht, hst, -, -⟩ := h
  have hle := padLength_le_of_padCheck hc
  refine ⟨wf_padMemory hwf hle, ht, hst, ?_, ?_⟩
  · rw [padBody_padlen_toNat hc]; exact (padLength_bounds _).1
  · rw [padBody_padlen_toNat hc]; exact hle

theorem inv_initBody {s : State} (h : s.Inv) : (initBody s).Inv := h.withT (Nat.le_refl 81) rfl rfl rfl rfl

/-- DIGEST's loop leaves what PadBody left, and T = 81. -/
theorem inv_digestBody {s : State} (h : s.Inv) (hc : padCheck s = none) : (digestBody s).Inv := by
  have hpad : (padBody (initBody s)).Inv := inv_padBody (inv_initBody h) hc
  have ht : (digestBody s).t = Const.noBlock := digestBlocks_t _ _ rfl
  exact hpad.withT (by rw [ht]; decide) (digestBlocks_buf _ _) (digestBlocks_bufBytes _ _) (digestBlocks_status _ _)
    (digestBlocks_padlen _ _)

/-- A command whose check passes keeps the invariant, its completion apart. -/
theorem inv_commandBody {i : Instr} {s : State} (h : s.Inv) (hc : commandCheck i s = none) : (commandBody i s).Inv := by
  cases i with
  | nop => exact h
  | init => exact inv_initBody h
  | pad => exact inv_padBody h hc
  | expand j => exact h
  | loadwv => exact h.withT (Nat.zero_le 81) rfl rfl rfl rfl
  | round =>
    have hlt : s.t.toNat < 80 := by
      simp only [commandCheck, ite_eq_right_iff, reduceCtorEq, imp_false] at hc
      omega
    have ht : (roundBody s).t.toNat ≤ 81 := by rw [roundBody_t_toNat hlt]; omega
    exact h.withT ht (roundBody_buf s) (roundBody_bufBytes s) (roundBody_status s) (roundBody_padlen s)
  | accum => exact h.withT (Nat.le_refl 81) rfl rfl rfl rfl
  | compress j =>
    have ht : (compressBody j s).t = Const.noBlock := by rw [compressBody_eq]
    exact h.withT (by rw [commandBody, ht]; decide) (compressBody_buf j s) (compressBody_bufBytes j s)
      (compressBody_status j s) (compressBody_padlen j s)
  | digest => exact inv_digestBody h hc

theorem inv_exec {i : Instr} {s t : State} (h : s.Inv) (he : exec i s = .next t) : t.Inv := by
  rcases exec_cases he with ⟨e, -, rfl⟩ | ⟨hc, rfl⟩
  · exact inv_complete h e.code_le
  · exact inv_complete (inv_commandBody h hc) (Nat.zero_le 5)

theorem inv_coreTurn {s t : State} (h : s.Inv) (he : coreTurn s = .next t) : t.Inv := by
  rcases coreTurn_cases s with ⟨-, hidle⟩ | ⟨-, -, hillegal⟩ | ⟨-, i, -, hexec⟩
  · cases hidle.symm.trans he; exact h
  · cases hillegal.symm.trans he; exact inv_complete h (by decide)
  · exact inv_exec h (hexec.symm.trans he)

theorem inv_hostRead {s : State} (h : s.Inv) (a : Addr) : (hostRead a s).Inv := by
  rcases hostRead_cases a s with ⟨e, -, hr⟩ | ⟨loc, -, -, -, hr⟩ | ⟨loc, -, -, hr⟩
  · rw [hr]; exact inv_takeHostError h e
  · rw [hr]; exact h
  · rw [hr]; exact h

/-- A write while idle: only a word of BUF, which lies inside it, touches the memory. -/
theorem inv_writeIdle {s : State} (h : s.Inv) {a : Addr} {loc : Location} (hl : locate s.bufBytes a = .ok loc)
    (x : Word) : (writeIdle x s loc).Inv := by
  cases loc with
  | cmd => exact inv_accept h x
  | status => exact inv_writeStatus h x
  | msglenLo => exact h
  | msglenHi => exact h
  | hash i => exact h
  | bufWord k =>
    obtain ⟨hwf, ht, hst, hpadlen⟩ := h
    have hk := (locate_bufWord hl (bufBytes_bounds s).1).2
    exact ⟨Memory.wf_write hwf _ hk, ht, hst, hpadlen⟩
  | id => exact inv_takeHostError h .writeRo
  | bufsize => exact inv_takeHostError h .writeRo
  | padlenLo => exact inv_takeHostError h .writeRo
  | padlenHi => exact inv_takeHostError h .writeRo
  | cmpcnt => exact inv_takeHostError h .writeRo
  | treg => exact inv_takeHostError h .writeRo
  | work i => exact inv_takeHostError h .writeRo
  | sched t => exact inv_takeHostError h .writeRo

theorem inv_hostWrite {s : State} (h : s.Inv) (a : Addr) (x : Word) : (hostWrite a x s).Inv := by
  rcases hostWrite_cases a x s with ⟨e, -, hw⟩ | ⟨-, hw⟩ | ⟨loc, -, -, -, hw⟩ | ⟨loc, hl, -, -, hw⟩
  · rw [hw]; exact inv_takeHostError h e
  · rw [hw]; exact inv_writeStatus h x
  · rw [hw]; exact inv_takeHostError h .writeWhileBusy
  · rw [hw]; exact inv_writeIdle h hl x

/-- The reset values meet the invariant, with whatever parameter (70_reset_and_hazards.md R190). -/
theorem inv_resetStep (s : State) : (resetStep s).Inv :=
  ⟨rfl, Nat.le_refl 81, ⟨rfl, rfl, Nat.zero_le 5, Nat.zero_le 4, nofun⟩, rfl, Nat.zero_le _⟩

/-- Settles O51: each kind of turn keeps the invariant. -/
theorem stepKeepsInvariant : Obligations.StepKeepsInvariant := by
  intro s t h hstep
  have hturn : s.afterTurn.Inv := h
  rcases step_cases hstep with ⟨-, hcore⟩ | ⟨a, rest, -, rfl⟩ | ⟨a, x, rest, -, rfl⟩ | ⟨rest, -, rfl⟩
  · exact inv_coreTurn hturn hcore
  · exact inv_hostRead hturn a
  · exact inv_hostWrite hturn a x
  · exact inv_resetStep s.afterTurn

end Sys2Proof.Machine
end

section
/-! The word placed by `withFetchWord` and the core's turn: what is decoded, run and completed. -/

namespace Sys2Proof

/-- The decoder reads off a well-formed command's word the command (30_encoding.md R85, R87). -/
theorem decode_encode {i : Instr} (h : WellFormed i = true) : decode (encode i) = .ok i := by
  have hop : opcodeOf i < 256 := by cases i <;> simp [opcodeOf]
  obtain ⟨hopc, harg⟩ := Laws.wordFields_of_bounds hop h
  unfold decode
  rw [hopc, harg]
  cases i <;> rfl

/-- A table row of 32 bits is decoded as the word it stands for. -/
theorem decodeTableWord_toNat {v : Word} {i : Instr} (h : decode v = .ok i) :
    decodeTableWord 32 v.toNat = some i := by
  have hv : v.toNat % 2 ^ 32 = v.toNat := Nat.mod_eq_of_lt v.isLt
  rw [decodeTableWord, hv, if_pos v.isLt, BitVec.ofNat_toNat, BitVec.setWidth_eq, h]

end Sys2Proof

namespace Sys2Proof.Machine

/-- The core's turn on a pending command. -/
theorem coreTurn_of_decode {s : State} {i : Instr} (hb : s.status.busy = true) (hd : decode s.pending = .ok i) :
    coreTurn s = exec i s := by
  rw [coreTurn, if_pos hb, pendingCommand, hd]

/-- The step after `withFetchWord` is the core's turn on the state with the word accepted. -/
theorem step_withFetchWord (s : State) (v : Word) :
    step (s.withFetchWord 32 v.toNat) = coreTurn (accept v s) := by
  have hv : BitVec.ofNat 32 (v.toNat % 2 ^ 32) = v := by
    rw [Nat.mod_eq_of_lt v.isLt, BitVec.ofNat_toNat, BitVec.setWidth_eq]
  rw [State.withFetchWord, commandAccepted, hv]
  rfl

/-- Settles O5: the word decodes to its command, which the core's turn then runs. -/
theorem fetchedWordRunsNext : Obligations.FetchedWordRunsNext := by
  intro s i hwf
  have hd := decode_encode hwf
  refine ⟨decodeTableWord_toNat hd, ?_⟩
  rw [step_withFetchWord, coreTurn_of_decode rfl hd]

/-- Settles O6: the core has the turn, and PENDING decodes. -/
theorem coreStepRunsDecodedCommand : Obligations.CoreStepRunsDecodedCommand := by
  intro s i hcore hb hd
  exact (step_core hcore).trans (coreTurn_of_decode (s := s.afterTurn) hb hd)

/-- Every command ends in a completion, which leaves PENDING (10_state.md R34). -/
theorem exec_completes (i : Instr) (s : State) :
    ∃ code t, exec i s = .next t ∧ t.status = s.status.completed code ∧ t.pending = s.pending := by
  cases hc : commandCheck i s with
  | some e => exact ⟨e.code, _, exec_of_fails hc, rfl, rfl⟩
  | none =>
    obtain ⟨-, hpending, hstatus, -⟩ := commandBody_frame i s
    exact ⟨0, _, exec_of_passes hc, by rw [succeed, complete_status, hstatus], hpending⟩

/-- So does a core turn while BUSY = 1, an illegal word included. -/
theorem coreTurn_completes {s : State} (hb : s.status.busy = true) :
    ∃ code t, coreTurn s = .next t ∧ t.status = s.status.completed code ∧ t.pending = s.pending := by
  rcases coreTurn_cases s with ⟨hidle, -⟩ | ⟨-, -, hillegal⟩ | ⟨-, i, -, hexec⟩
  · rw [hb] at hidle; cases hidle
  · exact ⟨CmdError.illegalCmd.code, _, hillegal, rfl, rfl⟩
  · rw [hexec]; exact exec_completes i s

/-- Settles O10: the clauses are the fields of `Status.completed`. -/
theorem coreStepCompletesCommand : Obligations.CoreStepCompletesCommand := by
  intro s hcore hb
  obtain ⟨code, t, hturn, hstatus, hpending⟩ := coreTurn_completes (s := s.afterTurn) hb
  refine ⟨t, (step_core hcore).trans hturn, ?_⟩
  rw [hstatus]
  exact ⟨rfl, rfl, bne_iff_ne, rfl, rfl, hpending⟩

end Sys2Proof.Machine
end

section
/-! What each command may write, register by register (10_state.md R22 to R30). -/

namespace Sys2Proof.Machine

/-- H and CMPCNT (10_state.md R22, R30). -/
theorem commandBody_hash {i : Instr} {s : State}
    (h : (commandBody i s).h ≠ s.h ∨ (commandBody i s).cmpcnt ≠ s.cmpcnt) :
    i = .init ∨ i = .accum ∨ i = .digest ∨ ∃ j, i = .compress j := by
  cases i <;> simp_all [commandBody]

/-- A..E (10_state.md R24). -/
theorem commandBody_work {i : Instr} {s : State} (h : (commandBody i s).v ≠ s.v) :
    i = .loadwv ∨ i = .round ∨ i = .digest ∨ ∃ j, i = .compress j := by
  cases i <;> simp_all [commandBody]

/-- W (10_state.md R25). -/
theorem commandBody_sched {i : Instr} {s : State} (h : (commandBody i s).w ≠ s.w) :
    i = .digest ∨ ∃ j, i = .expand j ∨ i = .compress j := by
  cases i <;> simp_all [commandBody]

/-- T (10_state.md R26). -/
theorem commandBody_t {i : Instr} {s : State} (h : (commandBody i s).t ≠ s.t) :
    i = .init ∨ i = .loadwv ∨ i = .round ∨ i = .accum ∨ i = .digest ∨ ∃ j, i = .compress j := by
  cases i <;> simp_all [commandBody]

/-- PADLEN and BUF (10_state.md R29, 40_padder.md R98). -/
theorem commandBody_pad {i : Instr} {s : State}
    (h : (commandBody i s).padlen ≠ s.padlen ∨ (commandBody i s).buf ≠ s.buf) : i = .pad ∨ i = .digest := by
  cases i <;> simp_all [commandBody]

/-- A byte of BUF that a command changes is a change of the stored bytes: no command draws afresh. -/
theorem buf_ne_of_readByte_ne {s t : State} (hr : t.resets = s.resets) (h : ∃ a, readByte t a ≠ readByte s a) :
    t.buf ≠ s.buf := by
  obtain ⟨a, ha⟩ := h
  exact fun hbuf => ha (by rw [readByte_congr hbuf hr])

/-- Settles O34: a failing command writes STATUS alone, and any other writes what its body does. -/
theorem commandsWriteOnlyTheirRegisters : Obligations.CommandsWriteOnlyTheirRegisters := by
  intro i s t h
  rcases exec_cases h with ⟨e, -, rfl⟩ | ⟨-, rfl⟩
  · have hbytes : readByte (raiseCmdError e s) = readByte s := readByte_congr rfl rfl
    simp [hbytes]
  · obtain ⟨hmsglen, hpending, -, hcap, hresets, hdraws, hscript, hreads⟩ := commandBody_frame i s
    exact ⟨⟨hmsglen, hpending, hcap, hresets, hdraws, hscript, hreads⟩, commandBody_hash, commandBody_work,
      commandBody_sched, commandBody_t, fun hp => commandBody_pad (hp.imp_right (buf_ne_of_readByte_ne hresets))⟩

end Sys2Proof.Machine
end

section
/-! The rounds of one block: LOADWV, then ROUND by ROUND (10_state.md R27, 42_compression.md R127). -/

namespace Sys2Proof.Machine

/-- LOADWV and `n` ROUNDs are LoadBody, its completion and `n` RoundBodies. -/
theorem runCommands_loadwv_rounds (s : State) {n : Nat} (hn : n ≤ 80) :
    runCommands (.loadwv :: List.replicate n .round) s = rounds n (succeed (loadBody s)) := by
  rw [runCommands_cons (exec_of_passes rfl)]
  exact runCommands_rounds rfl rfl n hn

/-- After them T counts the rounds, and the last command has succeeded. -/
theorem loadwv_rounds_result (s : State) {n : Nat} (hn : n ≤ 80) :
    (rounds n (succeed (loadBody s))).t.toNat = n ∧
      (rounds n (succeed (loadBody s))).status = s.status.afterSuccess :=
  ⟨(rounds_from_zero rfl n hn).1, rounds_status n _⟩

/-- ROUND with T > 79 is a SEQUENCE error (42_compression.md R127). -/
theorem exec_round_of_lt {s : State} (h : 79 < s.t.toNat) : exec .round s = .next (raiseCmdError .sequence s) :=
  exec_of_fails (if_pos h)

/-- Settles O35: T counts the rounds, and at 80 the check of ROUND fails. -/
theorem roundsRunToEighty : Obligations.RoundsRunToEighty := by
  intro s n hn
  obtain ⟨ht, hstatus⟩ := loadwv_rounds_result s hn
  rw [List.cons_append, ← List.cons_append, runCommands_append, runCommands_loadwv_rounds s hn]
  refine ⟨ht, hstatus, fun h80 => ?_⟩
  rw [runCommands_cons (exec_round_of_lt (by omega)), runCommands, raiseCmdError_t, raiseCmdError_status, ht, hstatus]
  exact ⟨h80, rfl⟩

end Sys2Proof.Machine
end

section
/-! STATUS and CMD as the host sees them (10_state.md R31 to R33). -/

namespace Sys2Proof.Machine

/-- A bit of STATUS as the host reads it, the width written as the sum of its fields' (10_state.md R31). -/
theorem Status.getLsbD_toWord (st : Status) (k : Nat) :
    st.toWord.getLsbD k = BitVec.getLsbD (w := 20 + 4 + 4 + 1 + 1 + 1 + 1) (0#20 ++ st.herrCause ++ st.errCode
      ++ BitVec.ofBool st.herr ++ BitVec.ofBool st.err ++ BitVec.ofBool st.done ++ BitVec.ofBool st.busy) k := rfl

/-- Above the four flags stand ERRCODE, then HERRCAUSE, then zeros. -/
theorem Status.getLsbD_toWord_codes (st : Status) (k : Nat) :
    st.toWord.getLsbD (4 + k) = if k < 4 then st.errCode.getLsbD k else st.herrCause.getLsbD (k - 4) := by
  rw [Status.getLsbD_toWord, Nat.add_comm 4 k]
  simp only [BitVec.getLsbD_append]
  by_cases hcode : k < 4
  · simp [hcode]
  · by_cases hcause : k - 4 < 4
    · simp [hcode, hcause]
    · simp [hcode, hcause, BitVec.getLsbD_of_ge st.herrCause (k - 4) (by omega)]

/-- The four flags, from bit 0 up. -/
theorem Status.getLsbD_toWord_flags (st : Status) :
    st.toWord.getLsbD 0 = st.busy ∧ st.toWord.getLsbD 1 = st.done ∧ st.toWord.getLsbD 2 = st.err ∧
      st.toWord.getLsbD 3 = st.herr := by
  simp only [Status.getLsbD_toWord, BitVec.getLsbD_append]
  simp

/-- Settles O37: the flags bit by bit, each code and the reserved bits as the bits above them. -/
theorem statusWordLayout : Obligations.StatusWordLayout := by
  intro st
  obtain ⟨hbusy, hdone, herr, hherr⟩ := st.getLsbD_toWord_flags
  refine ⟨hbusy, hdone, herr, hherr, BitVec.eq_of_getLsbD_eq fun i hi => ?_,
    BitVec.eq_of_getLsbD_eq fun i hi => ?_, BitVec.eq_of_getLsbD_eq fun i hi => ?_⟩
  · rw [BitVec.getLsbD_extractLsb', st.getLsbD_toWord_codes i]
    simp [hi]
  · have hbit := st.getLsbD_toWord_codes (4 + i)
    rw [← Nat.add_assoc] at hbit
    rw [BitVec.getLsbD_extractLsb', hbit]
    simp [hi]
  · have hbit := st.getLsbD_toWord_codes (8 + i)
    rw [← Nat.add_assoc, if_neg (by omega), BitVec.getLsbD_of_ge st.herrCause _ (by omega)] at hbit
    rw [BitVec.getLsbD_extractLsb', hbit]
    simp

/-- The offset of STATUS is mapped, whatever BUF_BYTES is. -/
theorem locate_STATUS (n : Nat) : locate n Notation.STATUS = .ok .status := rfl

/-- The offset of CMD is mapped, whatever BUF_BYTES is. -/
theorem locate_CMD (n : Nat) : locate n Notation.CMD = .ok .cmd := rfl

/-- The two spellings of a flag that a bit of the written value clears. -/
theorem and_not_eq_ite (b c : Bool) : (b && !c) = if c = true then false else b := by cases b <;> cases c <;> rfl

/-- Settles O38: in either busy state the write is `writeStatus`. -/
theorem statusWriteClears : Obligations.StatusWriteClears := by
  intro s x rest h
  have hw : hostWrite Notation.STATUS x s.afterTurn = writeStatus x s.afterTurn := hostWrite_of_status (locate_STATUS _)
  refine ⟨writeStatus x s.afterTurn, ?_, rfl, rfl, and_not_eq_ite _ _, and_not_eq_ite _ _, rfl,
    and_not_eq_ite _ _, rfl⟩
  rw [step_write h]
  exact congrArg _ hw

/-- Settles O39: the read is exact, the write is `accept` while idle and WRITE_WHILE_BUSY while busy. -/
theorem commandAcceptance : Obligations.CommandAcceptance := by
  intro s x rest
  have hl : locate s.afterTurn.bufBytes 0x0008 = .ok .cmd := locate_CMD _
  refine ⟨fun h => ?_, fun h hb => ?_, fun h hb => ?_⟩
  · rw [step_read h, hostRead_of_exact hl (.inr rfl)]; rfl
  · rw [step_write h, hostWrite_of_idle hl (by decide) hb]; rfl
  · rw [step_write h, hostWrite_of_busy hl (by decide) hb, takeHostError_eq]; rfl

end Sys2Proof.Machine
end

section
/-! Host accesses on a step (20_memory.md R51 to R58): where a turn's offset leads decides what the step is. -/

namespace Sys2Proof.Machine

/-- A read's turn leaves every location's value. -/
theorem readLocation_afterTurn (s : State) (loc : Location) : readLocation s.afterTurn loc = readLocation s loc := by
  cases loc with
  | bufWord k => rw [readLocation, readLocation, readWord_eq_be32, readWord_eq_be32,
    readByte_congr (s := s) (s' := s.afterTurn) rfl rfl]
  | _ => rfl

/-- A step that reads an exact value: idle, or of stable state (20_memory.md R54, R55, R58). -/
theorem step_read_exact {s : State} {a : Addr} {rest : List Turn} {loc : Location} (h : s.script = .read a :: rest)
    (hl : locate s.bufBytes a = .ok loc) (hv : s.status.busy = false ∨ loc.volatile = false) :
    step s = .next { s.afterTurn with reads := (a, readLocation s loc) :: s.reads } := by
  rw [step_read h, hostRead_of_exact (s := s.afterTurn) hl hv, readLocation_afterTurn]
  rfl

/-- A step that reads volatile state while a command runs (20_memory.md R58). -/
theorem step_read_draw {s : State} {a : Addr} {rest : List Turn} {loc : Location} (h : s.script = .read a :: rest)
    (hl : locate s.bufBytes a = .ok loc) (hb : s.status.busy = true) (hv : loc.volatile = true) :
    step s = .next { s.afterTurn with
      draws := s.draws + 1
      reads := (a, Config.busyRead s.draws) :: s.reads } := by
  rw [step_read h, hostRead_of_draw (s := s.afterTurn) hl hb hv]
  rfl

/-- A step that writes a mapped location while idle (20_memory.md R53, R57). -/
theorem step_write_idle {s : State} {a : Addr} {x : Word} {rest : List Turn} {loc : Location}
    (h : s.script = .write a x :: rest) (hl : locate s.bufBytes a = .ok loc) (hne : loc ≠ .status)
    (hb : s.status.busy = false) : step s = .next (writeIdle x s.afterTurn loc) := by
  rw [step_write h, hostWrite_of_idle (s := s.afterTurn) hl hne hb]

/-- A step whose write meets a running command (20_memory.md R53, R57). -/
theorem step_write_busy {s : State} {a : Addr} {x : Word} {rest : List Turn} {loc : Location}
    (h : s.script = .write a x :: rest) (hl : locate s.bufBytes a = .ok loc) (hne : loc ≠ .status)
    (hb : s.status.busy = true) : step s = .next { s.afterTurn with status := s.status.afterHostError 3 } := by
  rw [step_write h, hostWrite_of_busy (s := s.afterTurn) hl hne hb, takeHostError_eq]
  rfl

/-- A location found is the map's at that offset. -/
theorem mapped_of_locate {n : Nat} {a : Addr} {loc : Location} (h : locate n a = .ok loc) :
    mapped n a.toNat = some loc := by
  unfold locate at h
  split at h
  · cases h
  · split at h
    · next hm => cases h; exact hm
    · cases h

/-- A location that no indexed region of the map gives stands below offset 0x0028 (20_memory.md R51). -/
theorem controlRegister_of_mapped {n a : Nat} {loc : Location} (h : mapped n a = some loc)
    (hhash : ∀ i, loc ≠ .hash i) (hwork : ∀ i, loc ≠ .work i) (hsched : ∀ t, loc ≠ .sched t)
    (hbuf : ∀ k, loc ≠ .bufWord k) : controlRegister a = some loc := by
  unfold mapped at h
  split at h
  · exact h
  · split at h
    · exact absurd (Option.some.inj h).symm (hhash _)
    · split at h
      · exact absurd (Option.some.inj h).symm (hwork _)
      · split at h
        · exact absurd (Option.some.inj h).symm (hsched _)
        · split at h
          · exact absurd (Option.some.inj h).symm (hbuf _)
          · cases h

/-- STATUS has one offset (10_state.md R31). -/
theorem eq_of_locate_status {n : Nat} {a : Addr} (h : locate n a = .ok .status) : a = 0x000C := by
  have hc := controlRegister_of_mapped (mapped_of_locate h) nofun nofun nofun nofun
  unfold controlRegister at hc
  split at hc <;> cases hc
  next ha => exact BitVec.eq_of_toNat_eq ha

/-- CMD has one offset (10_state.md R33). -/
theorem eq_of_locate_cmd {n : Nat} {a : Addr} (h : locate n a = .ok .cmd) : a = 0x0008 := by
  have hc := controlRegister_of_mapped (mapped_of_locate h) nofun nofun nofun nofun
  unfold controlRegister at hc
  split at hc <;> cases hc
  next ha => exact BitVec.eq_of_toNat_eq ha

/-- A volatile register of the host's map: where its offset leads and what it reads as. -/
theorem locate_volatile {s : State} {a : Addr} {x : Word} (h : (a, x) ∈ s.hashRegisters ++ s.resultRegisters)
    (n : Nat) : ∃ loc, locate n a = .ok loc ∧ loc.volatile = true ∧ readLocation s loc = x := by
  rcases List.mem_append.1 h with h | h
  · obtain ⟨i, hl, hr⟩ := locate_hash h n
    exact ⟨.hash i, hl, rfl, hr⟩
  · obtain ⟨loc, hl, hres, hr⟩ := locate_result h n
    exact ⟨loc, hl, Location.volatile_of_resultRegister hres, hr⟩

/-- Any register of the map: where its offset leads and what it reads as. -/
theorem locate_register {s : State} {a : Addr} {x : Word}
    (h : (a, x) ∈ s.stableRegisters ++ s.hashRegisters ++ s.resultRegisters) (n : Nat) :
    ∃ loc, locate n a = .ok loc ∧ readLocation s loc = x := by
  rw [List.append_assoc] at h
  rcases List.mem_append.1 h with h | h
  · obtain ⟨loc, hl, -, hr⟩ := locate_stable h n
    exact ⟨loc, hl, hr⟩
  · obtain ⟨loc, hl, -, hr⟩ := locate_volatile h n
    exact ⟨loc, hl, hr⟩

/-- An aligned offset inside BUF is a word of it (20_memory.md R51, R52). -/
theorem locate_of_bufOffset {n : Nat} {a : Addr} (hn : n ≤ 32768)
    (h : 0x8000 ≤ a.toNat ∧ a.toNat < 0x8000 + n ∧ a.toNat % 4 = 0) : ∃ k, locate n a = .ok (.bufWord k) := by
  have ha : a = BitVec.ofNat 16 (0x8000 + 4 * ((a.toNat - 0x8000) / 4)) := by
    apply BitVec.eq_of_toNat_eq
    rw [BitVec.toNat_ofNat]
    omega
  exact ⟨_, ha ▸ locate_bufWordAddr hn (by omega)⟩

end Sys2Proof.Machine
end

section
/-! Words of BUF as the host reads and writes them (20_memory.md R53, R54). -/

namespace Sys2Proof.Machine

/-- MemRead of `n` bytes is below 256^n. -/
theorem memRead_lt (s : State) (addr n : Nat) : memRead s addr n < 256 ^ n := by
  induction n with
  | zero => exact Nat.one_pos
  | succ n ih =>
    have hbyte := (readByte s (addr + n)).isLt
    rw [memRead, Nat.pow_succ]
    omega

/-- BE32 of the four bytes of a word is its MemRead (00_scope.md R10, R11). -/
theorem be32_toNat_eq_memRead (s : State) (addr : Nat) :
    (be32 (readByte s addr) (readByte s (addr + 1)) (readByte s (addr + 2)) (readByte s (addr + 3))).toNat =
      memRead s addr 4 := by
  rw [← readWord_eq_be32, readWord, BitVec.toNat_ofNat]
  exact Nat.mod_eq_of_lt (memRead_lt s addr 4)

/-- A byte of BUF after a MemWrite: the value's byte inside the range, the old byte outside it (00_scope.md R10). -/
theorem readByte_write (s : State) (addr n v b : Nat) :
    readByte { s with buf := Memory.write addr n v s.buf } b =
      if addr ≤ b ∧ b < addr + n then BitVec.ofNat 8 (v / 256 ^ (addr + n - 1 - b)) else readByte s b := by
  rw [readByte, Memory.get?_write]
  split <;> rfl

/-- Byte `k` of a word, counted from the least significant. -/
theorem ofNat_div_eq_extractLsb' (x : Word) (k : Nat) :
    BitVec.ofNat 8 (x.toNat / 256 ^ k) = x.extractLsb' (8 * k) 8 := by
  apply BitVec.eq_of_toNat_eq
  rw [BitVec.toNat_ofNat, BitVec.extractLsb'_toNat, Nat.shiftRight_eq_div_pow, Nat.pow_mul]

/-- The `i`-th byte of a word written big-endian (20_memory.md R53). -/
theorem readByte_writeWord (s : State) (addr : Nat) (x : Word) {i : Nat} (hi : i < 4) :
    readByte { s with buf := Memory.write addr 4 x.toNat s.buf } (addr + i) = x.extractLsb' (8 * (3 - i)) 8 := by
  rw [readByte_write, if_pos (by omega), show addr + 4 - 1 - (addr + i) = 3 - i by omega, ofNat_div_eq_extractLsb']

/-- Settles O40: the offset leads to word `k`, exact while idle and volatile while busy. -/
theorem bufWordRead : Obligations.BufWordRead := by
  intro s k a rest hk ha h
  obtain ⟨-, -, hle⟩ := bufBytes_bounds s
  have hl : locate s.bufBytes a = .ok (.bufWord k) := ha ▸ locate_bufWordAddr hle hk
  refine ⟨fun hb => ⟨?_, be32_toNat_eq_memRead s (4 * k)⟩, fun hb => step_read_draw h hl hb rfl⟩
  rw [step_read_exact h hl (.inl hb), readLocation, readWord_eq_be32]

/-- Settles O43: the write is MemWrite of four bytes while idle and WRITE_WHILE_BUSY while busy. -/
theorem bufWordWrite : Obligations.BufWordWrite := by
  intro s k x rest hk h
  obtain ⟨-, -, hle⟩ := bufBytes_bounds s
  have hl := locate_bufWordAddr hle hk
  refine ⟨fun hb => ?_, step_write_busy h hl nofun⟩
  have hbyte {i : Nat} (hi : i < 4) := readByte_writeWord s.afterTurn (4 * k) x hi
  refine ⟨_, step_write_idle h hl nofun hb, rfl, hbyte (i := 0) (by decide), hbyte (i := 1) (by decide),
    hbyte (i := 2) (by decide), hbyte (i := 3) (by decide), fun b hout => ?_⟩
  exact (readByte_write s.afterTurn (4 * k) 4 x.toNat b).trans (if_neg (by omega))

end Sys2Proof.Machine
end

section
/-! The registers of the map as the host reads and writes them (20_memory.md R55, R57, R58). -/

namespace Sys2Proof.Machine

/-- Settles O41: every register's offset leads to the location that holds its value. -/
theorem registerReads : Obligations.RegisterReads := by
  intro s a x rest h hb hmem
  obtain ⟨loc, hl, rfl⟩ := locate_register hmem s.bufBytes
  exact step_read_exact h hl (.inl hb)

/-- Settles O42: volatile registers and words of BUF are drawn, stable registers are exact. -/
theorem busyReads : Obligations.BusyReads := by
  intro s a x rest h hb
  refine ⟨fun hvol => ?_, fun hmem => ?_⟩
  · rcases hvol with hmem | hbuf
    · obtain ⟨loc, hl, hv, -⟩ := locate_volatile hmem s.bufBytes
      exact step_read_draw h hl hb hv
    · obtain ⟨-, -, hle⟩ := bufBytes_bounds s
      obtain ⟨k, hl⟩ := locate_of_bufOffset hle hbuf
      exact step_read_draw h hl hb rfl
  · obtain ⟨loc, hl, hv, rfl⟩ := locate_stable hmem s.bufBytes
    exact step_read_exact h hl (.inr hv)

/-- An idle write of a location that only WRITE_RO answers (20_memory.md R57). -/
theorem step_write_readOnly {s : State} {a : Addr} {x : Word} {rest : List Turn} {loc : Location}
    (h : s.script = .write a x :: rest) (hl : locate s.bufBytes a = .ok loc) (hne : loc ≠ .status)
    (hb : s.status.busy = false) (hro : writeIdle x s.afterTurn loc = takeHostError .writeRo s.afterTurn) :
    step s = .next { s.afterTurn with status := s.status.afterHostError 4 } := by
  rw [step_write_idle h hl hne hb, hro, takeHostError_eq]
  rfl

/-- Settles O44: STATUS first, then the busy drop, then each register's own idle write. -/
theorem registerWrites : Obligations.RegisterWrites := by
  intro s a x rest h
  refine ⟨?_, fun hb hne hmem => ?_, fun hb => ⟨?_, ?_, ?_, ?_, ?_, ?_, ?_, ?_, ?_⟩⟩
  · rintro rfl
    exact (step_write h).trans (congrArg _ (hostWrite_of_status (locate_STATUS _)))
  · obtain ⟨⟨_, y⟩, hreg, rfl⟩ := List.mem_map.1 hmem
    obtain ⟨loc, hl, -⟩ := locate_register hreg s.bufBytes
    exact step_write_busy h hl (fun hst => hne (eq_of_locate_status (hst ▸ hl))) hb
  · rintro rfl; exact step_write_idle (loc := .cmd) h rfl nofun hb
  · rintro rfl; exact step_write_idle (loc := .msglenLo) h rfl nofun hb
  · rintro rfl; exact step_write_idle (loc := .msglenHi) h rfl nofun hb
  · rintro rfl; exact step_write_idle (loc := .hash 0) h rfl nofun hb
  · rintro rfl; exact step_write_idle (loc := .hash 1) h rfl nofun hb
  · rintro rfl; exact step_write_idle (loc := .hash 2) h rfl nofun hb
  · rintro rfl; exact step_write_idle (loc := .hash 3) h rfl nofun hb
  · rintro rfl; exact step_write_idle (loc := .hash 4) h rfl nofun hb
  · rintro (rfl | rfl | hmem)
    · exact step_write_readOnly (loc := .id) h rfl nofun hb rfl
    · exact step_write_readOnly (loc := .bufsize) h rfl nofun hb rfl
    · obtain ⟨⟨_, y⟩, hreg, rfl⟩ := List.mem_map.1 hmem
      obtain ⟨loc, hl, hres, -⟩ := locate_result hreg s.bufBytes
      exact step_write_readOnly h hl (Location.ne_status_of_resultRegister hres) hb
        (writeIdle_of_resultRegister hres x s.afterTurn)

end Sys2Proof.Machine
end

section
/-! How a command starts (20_memory.md R61, 10_state.md R33, R35): BUSY and PENDING through each kind of turn. -/

namespace Sys2Proof.Machine

/-- An idle write keeps BUSY and PENDING, unless it is of CMD (10_state.md R33). -/
theorem writeIdle_keeps_command {loc : Location} (h : loc ≠ .cmd) (x : Word) (s : State) :
    (writeIdle x s loc).pending = s.pending ∧ (writeIdle x s loc).status.busy = s.status.busy := by
  cases loc with
  | cmd => exact absurd rfl h
  | _ => simp [writeIdle, Status.afterHostError, Status.clearedBy]

/-- A host write is an accepted write of CMD, or keeps BUSY and PENDING. -/
theorem hostWrite_accepts_or_keeps (a : Addr) (x : Word) (s : State) :
    (a = 0x0008 ∧ s.status.busy = false ∧ hostWrite a x s = accept x s) ∨
      ((hostWrite a x s).pending = s.pending ∧ (hostWrite a x s).status.busy = s.status.busy) := by
  rcases hostWrite_cases a x s with ⟨e, -, hw⟩ | ⟨-, hw⟩ | ⟨loc, -, -, -, hw⟩ | ⟨loc, hl, -, hb, hw⟩
  · right; rw [hw, takeHostError_eq]; exact ⟨rfl, rfl⟩
  · right; rw [hw]; exact ⟨rfl, rfl⟩
  · right; rw [hw, takeHostError_eq]; exact ⟨rfl, rfl⟩
  · rw [hw]
    by_cases hcmd : loc = .cmd
    · subst hcmd; exact .inl ⟨eq_of_locate_cmd hl, hb, rfl⟩
    · exact .inr (writeIdle_keeps_command hcmd x s)

/-- A host read keeps BUSY and PENDING (20_memory.md R55). -/
theorem hostRead_keeps_command (a : Addr) (s : State) :
    (hostRead a s).pending = s.pending ∧ (hostRead a s).status.busy = s.status.busy := by
  rcases hostRead_cases a s with ⟨e, -, hr⟩ | ⟨loc, -, -, -, hr⟩ | ⟨loc, -, -, hr⟩
  · rw [hr, takeHostError_eq]; exact ⟨rfl, rfl⟩
  · rw [hr]; exact ⟨rfl, rfl⟩
  · rw [hr]; exact ⟨rfl, rfl⟩

/-- The core's turn keeps PENDING and never sets BUSY (10_state.md R34). -/
theorem coreTurn_starts_nothing {s t : State} (h : coreTurn s = .next t) :
    t.pending = s.pending ∧ (t.status.busy = true → s.status.busy = true) := by
  rcases coreTurn_cases s with ⟨-, hidle⟩ | ⟨hb, -⟩ | ⟨hb, -⟩
  · cases hidle.symm.trans h; exact ⟨rfl, id⟩
  all_goals
    obtain ⟨code, u, hturn, -, hpending⟩ := coreTurn_completes hb
    cases hturn.symm.trans h
    exact ⟨hpending, fun _ => hb⟩

/-- A step accepts a CMD write, resets the machine, or keeps PENDING and starts nothing. -/
theorem step_command_cases {s t : State} (h : step s = .next t) :
    (∃ (x : Word) (rest : List Turn), s.status.busy = false ∧ s.script = .write 0x0008 x :: rest ∧ t.pending = x) ∨
    (∃ rest : List Turn, s.script = .reset :: rest ∧ t.pending = 0 ∧ t.status.busy = false) ∨
    (t.pending = s.pending ∧ (t.status.busy = true → s.status.busy = true)) := by
  rcases step_cases h with ⟨-, hcore⟩ | ⟨a, rest, -, rfl⟩ | ⟨a, x, rest, hw, rfl⟩ | ⟨rest, hr, rfl⟩
  · exact .inr (.inr (coreTurn_starts_nothing (s := s.afterTurn) hcore))
  · obtain ⟨hpending, hbusy⟩ := hostRead_keeps_command a s.afterTurn
    exact .inr (.inr ⟨hpending, hbusy.symm.trans⟩)
  · rcases hostWrite_accepts_or_keeps a x s.afterTurn with ⟨rfl, hb, hacc⟩ | ⟨hpending, hbusy⟩
    · exact .inl ⟨x, rest, hb, hw, by rw [hacc, accept_pending]⟩
    · exact .inr (.inr ⟨hpending, hbusy.symm.trans⟩)
  · exact .inr (.inl ⟨rest, hr, rfl, rfl⟩)

/-- Settles O54: BUSY rises in the first kind of step alone, and PENDING changes in the first two. -/
theorem onlyCmdWriteStartsCommand : Obligations.OnlyCmdWriteStartsCommand := by
  intro s t h
  rcases step_command_cases h with ⟨x, rest, hb, hw, hx⟩ | ⟨rest, hr, hzero, hidle⟩ | ⟨hkeep, hmono⟩
  · exact ⟨fun _ _ => ⟨x, rest, hw, hx⟩, fun _ => .inl ⟨x, rest, hb, hw, hx⟩⟩
  · exact ⟨fun _ hbusy => absurd (hidle.symm.trans hbusy) nofun, fun _ => .inr ⟨rest, hr, hzero⟩⟩
  · exact ⟨fun hb hbusy => absurd (hb.symm.trans (hmono hbusy)) nofun, fun hne => absurd hkeep hne⟩

end Sys2Proof.Machine
end

section
/-! The decoder and the encoder (30_encoding.md): what a word with a given OPC decodes to, and which word a command
comes from. -/

namespace Sys2Proof

theorem withoutArg_eq_ok {arg : Nat} {i k : Instr} : withoutArg arg i = .ok k ↔ arg = 0 ∧ i = k := by
  unfold withoutArg
  split <;> simp [*]

/-- Only the opcodes 0x00 .. 0x08 decode (30_encoding.md R84 (a)). -/
theorem decode_of_reserved {v : Word} (h : 0x09 ≤ opcField v) : decode v = .error .reservedOpcode := by
  unfold decode
  split
  case h_10 => rfl
  all_goals omega

/-- A word that decodes holds its command's opcode and operand as its two fields (30_encoding.md R80, R81). -/
theorem fields_of_decode {v : Word} {i : Instr} (h : decode v = .ok i) :
    opcField v = opcodeOf i ∧ argField v = argOf i := by
  unfold decode at h
  split at h
  case h_4 hopc | h_8 hopc => cases h; exact ⟨hopc, rfl⟩
  case h_10 => cases h
  all_goals
    rename_i hopc
    obtain ⟨harg, rfl⟩ := withoutArg_eq_ok.mp h
    exact ⟨hopc, harg⟩

/-- A command whose operand fits the 24 bits of ARG has an encoding (30_encoding.md R82). -/
theorem wellFormed_of_argOf_lt {i : Instr} (h : argOf i < 2 ^ 24) : WellFormed i = true := by
  cases i with
  | expand j => exact decide_eq_true h
  | compress j => exact decide_eq_true h
  | _ => rfl

/-- A word is its two fields (30_encoding.md R80). -/
theorem toNat_eq_fields (v : Word) : v.toNat = opcField v + 256 * argField v := by
  rw [opcField_eq, argField_eq, Nat.mod_add_div]

/-- Settles O3: both fields of the word are read back, by `decode_encode`. -/
theorem decodeEncodeRoundTrip : Obligations.DecodeEncodeRoundTrip :=
  fun _ hwf => decode_encode hwf

/-- Settles O4: the word's two fields are those of the command, and so of its encoding. -/
theorem legalWordIsUnique : Obligations.LegalWordIsUnique := by
  intro v i h
  obtain ⟨hopc, harg⟩ := fields_of_decode h
  have hwf : WellFormed i = true := wellFormed_of_argOf_lt (harg ▸ argField_lt v)
  refine ⟨hwf, BitVec.eq_of_toNat_eq ?_⟩
  rw [encode_toNat i hwf, toNat_eq_fields v, hopc, harg]

/-- Settles O2: the decoder runs on each word. -/
theorem specWordsDecode : Obligations.SpecWordsDecode := by
  unfold Obligations.SpecWordsDecode
  decide

end Sys2Proof

namespace Sys2Proof.Machine

/-- The core's turn on a pending word that is no command. -/
theorem coreTurn_of_decode_error {s : State} {e : DecodeError} (hb : s.status.busy = true)
    (hd : decode s.pending = .error e) : coreTurn s = .next (raiseCmdError .illegalCmd s) := by
  rw [coreTurn, if_pos hb, pendingCommand, hd]
  rfl

/-- Settles O1: OPC chooses the row, and the core's turn reports what no row decodes. -/
theorem decoderFollowsOpcodeMap : Obligations.DecoderFollowsOpcodeMap := by
  refine ⟨fun v => ?_, fun s e hcore hb hd => ?_⟩
  · rw [← opcField_eq, ← argField_eq]
    refine ⟨fun p hp hopc => ?_, fun hopc => ?_, fun hopc => ?_, decode_of_reserved⟩
    · rw [decode, hopc]
      fin_cases hp <;> rfl
    · rw [decode, hopc]; rfl
    · rw [decode, hopc]; rfl
  · exact (step_core hcore).trans (coreTurn_of_decode_error (s := s.afterTurn) hb hd)

end Sys2Proof.Machine
end

section
/-! The padder (40_padder.md): the value of P(L) by L mod 64, the bytes and the length field that PadBody leaves. -/

namespace Sys2Proof.Machine

/-- The length field fits into the block the message ends in (40_padder.md R100 (e)). -/
theorem padLength_of_mod_le {len : Nat} (h : len % 64 ≤ 55) : padLength len = 64 * (len / 64 + 1) := by
  unfold padLength; omega

/-- The length field needs a block of its own (40_padder.md R100 (e)). -/
theorem padLength_of_le_mod {len : Nat} (h : 56 ≤ len % 64) : padLength len = 64 * (len / 64 + 2) := by
  unfold padLength; omega

/-- P(L) is the least whole number of blocks that holds message, marker and length field (40_padder.md R100 (f)). -/
theorem padLength_le {len n : Nat} (hn : n % 64 = 0) (hle : len + 9 ≤ n) : padLength len ≤ n := by
  unfold padLength; omega

/-- Settles O24: the reference formula is P(L) where the length field fits into the block the message ends in, and a block
too short where it does not. -/
theorem padLengthExceedsReferenceFormula : Obligations.PadLengthExceedsReferenceFormula := by
  intro len
  have href : (len + 64) / 64 * 64 = 64 * (len / 64 + 1) := by omega
  rw [href]
  refine ⟨padLength_of_mod_le, fun h => ⟨?_, ?_⟩⟩
  · rw [padLength_of_le_mod h]; omega
  · omega

@[simp] theorem readByte_succeed (s : State) : readByte (succeed s) = readByte s := readByte_congr rfl rfl

/-- BUF after PadBody, byte by byte (40_padder.md R98). -/
theorem readByte_padBody (s : State) (a : Nat) :
    readByte (padBody s) a =
      if a < s.msglen.toNat then readByte s a
      else if a = s.msglen.toNat then 0x80
      else if a < padLength s.msglen.toNat - 8 then 0
      else if a < padLength s.msglen.toNat then
        BitVec.ofNat 8 (8 * s.msglen.toNat / 256 ^ (padLength s.msglen.toNat - 1 - a))
      else readByte s a := by
  rw [readByte, padBody_buf, padBody_resets, get?_padMemory]
  split
  · rfl
  · split
    · rfl
    · split
      · rfl
      · split <;> rfl

theorem readByte_padBody_message {s : State} {a : Nat} (h : a < s.msglen.toNat) :
    readByte (padBody s) a = readByte s a := by
  rw [readByte_padBody, if_pos h]

theorem readByte_padBody_marker (s : State) : readByte (padBody s) s.msglen.toNat = 0x80 := by
  rw [readByte_padBody, if_neg (Nat.lt_irrefl _), if_pos rfl]

theorem readByte_padBody_zero {s : State} {a : Nat} (h : s.msglen.toNat < a) (hp : a < padLength s.msglen.toNat - 8) :
    readByte (padBody s) a = 0 := by
  rw [readByte_padBody, if_neg (by omega), if_neg (by omega), if_pos hp]

/-- Byte `k` of the length field, which is big-endian. -/
theorem readByte_padBody_length {s : State} {k : Nat} (hk : k < 8) :
    readByte (padBody s) (padLength s.msglen.toNat - 8 + k) = BitVec.ofNat 8 (8 * s.msglen.toNat / 256 ^ (7 - k)) := by
  have hp := padLength_bounds s.msglen.toNat
  rw [readByte_padBody, if_neg (by omega), if_neg (by omega), if_neg (by omega), if_pos (by omega),
    show padLength s.msglen.toNat - 1 - (padLength s.msglen.toNat - 8 + k) = 7 - k by omega]

theorem readByte_padBody_beyond {s : State} {a : Nat} (h : padLength s.msglen.toNat ≤ a) :
    readByte (padBody s) a = readByte s a := by
  have hp := padLength_bounds s.msglen.toNat
  rw [readByte_padBody, if_neg (by omega), if_neg (by omega), if_neg (by omega), if_neg (by omega)]

/-- PadCheck passes when P(L) fits BUF: BUF_BYTES is far below 2^61. -/
theorem padCheck_of_padLength_le {s : State} (h : padLength s.msglen.toNat ≤ s.bufBytes) : padCheck s = none := by
  have hp := padLength_bounds s.msglen.toNat
  exact (padCheck_eq_none s).2 (by omega)

/-- Settles O21: PAD is PadBody and the completion, and PadBody's bytes are known range by range. -/
theorem padResult : Obligations.PadResult := by
  rintro s _ p rfl hp - hle
  obtain rfl : p = padLength s.msglen.toNat := hp
  obtain ⟨-, hlo, hhi⟩ := padLength_bounds s.msglen.toNat
  refine ⟨hlo, hhi, succeed (padBody s), exec_of_passes (padCheck_of_padLength_le hle), rfl, ?_⟩
  rw [readByte_succeed]
  exact ⟨fun _ => readByte_padBody_message, readByte_padBody_marker s, fun _ => readByte_padBody_zero,
    fun _ => readByte_padBody_length, fun _ => readByte_padBody_beyond⟩

/-- MemRead of the big-endian bytes of a number gives back its `n` low bytes (00_scope.md R10). -/
theorem memRead_of_bigEndian {s : State} {addr n v : Nat}
    (h : ∀ k < n, readByte s (addr + k) = BitVec.ofNat 8 (v / 256 ^ (n - 1 - k))) : memRead s addr n = v % 256 ^ n := by
  induction n generalizing v with
  | zero => exact (Nat.mod_one v).symm
  | succ n ih =>
    have hhigh : memRead s addr n = v / 256 % 256 ^ n := ih fun k hk => by
      rw [h k (by omega), Nat.div_div_eq_div_mul, ← pow_succ', show n + 1 - 1 - k = n - 1 - k + 1 by omega]
    have hlow : (readByte s (addr + n)).toNat = v % 256 := by
      rw [h n (by omega), show n + 1 - 1 - n = 0 by omega, pow_zero, Nat.div_one, BitVec.toNat_ofNat]
    rw [memRead, hhigh, hlow, pow_succ', Nat.mod_mul]
    omega

/-- The length field reads 8L, which has 64 bits for L below 2^61 (40_padder.md R100 (c)). -/
theorem memRead_padBody_length {s : State} (h : s.msglen.toNat < 2 ^ 61) :
    memRead (padBody s) (padLength s.msglen.toNat - 8) 8 = 8 * s.msglen.toNat := by
  rw [memRead_of_bigEndian fun _ => readByte_padBody_length]
  exact Nat.mod_eq_of_lt (by omega)

/-- Settles O23: PADLEN holds P(L), whose values are known, and the bytes are those PadBody leaves. -/
theorem paddedBufferProperties : Obligations.PaddedBufferProperties := by
  rintro s _ rfl hlt hle
  have hcheck : padCheck s = none := padCheck_of_padLength_le hle
  obtain ⟨hmod, hlo, hhi⟩ := padLength_bounds s.msglen.toNat
  refine ⟨succeed (padBody s), exec_of_passes hcheck, rfl, ?_⟩
  rw [succeed_padlen, padBody_padlen_toNat hcheck, readByte_succeed]
  refine ⟨hmod, ⟨by omega, hlo, hhi⟩, ?_, readByte_padBody_marker s, padLength_of_mod_le, padLength_of_le_mod,
    fun _ => padLength_le⟩
  rw [memRead_congr fun i _ => congrFun (readByte_succeed (padBody s)) _]
  exact memRead_padBody_length hlt

end Sys2Proof.Machine
end

section
/-! Commands run twice (40_padder.md R99 (h), 41_expander.md R112 (e)). -/

namespace Sys2Proof.Machine

theorem exec_msglen {i : Instr} {s t : State} (h : exec i s = .next t) : t.msglen = s.msglen := by
  rcases exec_cases h with ⟨e, -, rfl⟩ | ⟨-, rfl⟩
  · exact raiseCmdError_msglen e s
  · obtain ⟨hmsglen, -⟩ := commandBody_frame i s
    rw [succeed_msglen, hmsglen]

theorem exec_bufBytes {i : Instr} {s t : State} (h : exec i s = .next t) : t.bufBytes = s.bufBytes := by
  rw [State.bufBytes, State.bufBytes, exec_capacity h]

theorem raiseCmdError_idem (e : CmdError) (s : State) : raiseCmdError e (raiseCmdError e s) = raiseCmdError e s := rfl

theorem succeed_idem (s : State) : succeed (succeed s) = succeed s := rfl

/-- A command runs again to the same state when its check answers as before and, where that passes, its body writes
nothing new. -/
theorem exec_again {i : Instr} {s t : State} (h : exec i s = .next t) (hcheck : commandCheck i t = commandCheck i s)
    (hbody : commandCheck i s = none →
      commandBody i (succeed (commandBody i s)) = succeed (commandBody i s)) : exec i t = .next t := by
  rcases exec_cases h with ⟨e, he, rfl⟩ | ⟨hnone, rfl⟩
  · rw [exec_of_fails (hcheck.trans he), raiseCmdError_idem]
  · rw [exec_of_passes (hcheck.trans hnone), hbody hnone, succeed_idem]

/-- PadBody changes nothing after a successful PAD, on a BUF in canonical form (40_padder.md R99 (h)). -/
theorem padBody_succeed_padBody {s : State} (hwf : Memory.wf s.bufBytes s.buf = true) (hcheck : padCheck s = none) :
    padBody (succeed (padBody s)) = succeed (padBody s) := by
  have hbuf := padMemory_idem hwf (padLength_le_of_padCheck hcheck)
  apply State.ext <;> simp [hbuf]

/-- A successful EXPAND leaves the block, and so its schedule. -/
theorem schedule_succeed_expandBody (j : Nat) (s : State) : schedule j (succeed (expandBody j s)) = schedule j s :=
  schedule_congr fun _ _ => congrArg (BitVec.ofNat 32) (memRead_congr fun _ _ => congrFun (readByte_congr rfl rfl) _)

/-- ExpandBody changes nothing after a successful EXPAND of the block (41_expander.md R112 (e)). -/
theorem expandBody_succeed_expandBody (j : Nat) (s : State) :
    expandBody j (succeed (expandBody j s)) = succeed (expandBody j s) := by
  apply State.ext <;> simp [schedule_succeed_expandBody]

/-- Settles O32: both checks read what no command writes, and both bodies are idempotent. -/
theorem padAndExpandAreIdempotent : Obligations.PadAndExpandAreIdempotent := by
  refine fun s t j hwf => ⟨fun h => ?_, fun h => ?_⟩
  · have hcheck : padCheck t = padCheck s := by simp only [padCheck, exec_msglen h, exec_bufBytes h]
    exact exec_again h hcheck (padBody_succeed_padBody hwf)
  · have hcheck : commandCheck (.expand j) t = commandCheck (.expand j) s := by
      simp only [commandCheck, blockExists, exec_bufBytes h]
    exact exec_again h hcheck fun _ => expandBody_succeed_expandBody j s

end Sys2Proof.Machine
end

section
/-! EXPAND: its result, and what its schedule depends on (41_expander.md R111, R113). -/

namespace Sys2Proof.Machine

/-- Settles O18: the answer is ExpandBody and the completion, and each loop's words of the schedule are known. -/
theorem expandResult : Obligations.ExpandResult := by
  intro s j hblock
  refine ⟨schedule j s, ?_, schedule_get_block j s, schedule_recurrence j s⟩
  rw [expand_next hblock, succeed_eq]
  rfl

/-- After a successful EXPAND, W is the schedule of the block. -/
theorem expand_w {s t : State} {j : Nat} (hblock : 64 * j + 64 ≤ s.bufBytes) (h : exec (.expand j) s = .next t) :
    t.w = schedule j s := by
  obtain rfl : succeed (expandBody j s) = t := Host.Outcome.next.inj ((expand_next hblock).symm.trans h)
  rw [succeed_w, expandBody_w]

/-- Settles O19: both runs leave schedules, the recurrence determines a schedule from its first 16 words, and those are
the words of the block. -/
theorem scheduleDependsOnlyOnBlock : Obligations.ScheduleDependsOnlyOnBlock := by
  intro s s' t t' j j' hblock hblock' h h'
  rw [expand_w hblock h, expand_w hblock' h']
  exact ⟨schedule_get_block j s, recurrence_unique (schedule_recurrence j s) (schedule_recurrence j' s'),
    fun heq => schedule_congr (readWord_eq_of_block_eq heq)⟩

end Sys2Proof.Machine
end

section
/-! The compression engine (42_compression.md): one command at a time, then COMPRESS as a whole. -/

namespace Sys2Proof.Machine

/-- Settles O13: LOADWV makes no check, and its body is LoadBody. -/
theorem loadwvResult : Obligations.LoadwvResult := by
  intro s
  rw [exec_of_passes rfl, succeed_eq]
  rfl

/-- ROUND with T <= 79 is RoundBody (42_compression.md R127). -/
theorem exec_round_of_lt_80 {s : State} (h : s.t.toNat < 80) : exec .round s = .next (succeed (roundBody s)) :=
  exec_of_passes (if_neg (by omega))

/-- Settles O14: the command is RoundBody and the completion, and RoundBody's A..E are those of `Reference.round`. -/
theorem roundResult : Obligations.RoundResult := by
  rintro s _ hlt rfl
  have ht : s.t + 1 = BitVec.ofNat 7 (s.t.toNat + 1) := by simp [BitVec.ofNat_add]
  rw [exec_round_of_lt_80 hlt, succeed_eq, roundBody_eq hlt, roundVars_eq_reference, ht]
  rfl

/-- Settles O15: the bounds of the quarter decide the tests on `t` in both functions. -/
theorem roundSelectionFollowsTable : Obligations.RoundSelectionFollowsTable := by
  intro t b c d
  refine ⟨fun h => ?_, fun h => ?_, fun h => ?_, fun h => ?_⟩
  · have lt20 : t < 20 := by omega
    simp only [mix, roundConstant, if_pos lt20]
    exact ⟨rfl, rfl⟩
  · have ge20 : ¬t < 20 := by omega
    have lt40 : t < 40 := by omega
    simp only [mix, roundConstant, if_neg ge20, if_pos lt40]
    exact ⟨rfl, rfl⟩
  · have ge20 : ¬t < 20 := by omega
    have ge40 : ¬t < 40 := by omega
    have lt60 : t < 60 := by omega
    simp only [mix, roundConstant, if_neg ge20, if_neg ge40, if_pos lt60]
    exact ⟨rfl, rfl⟩
  · have ge20 : ¬t < 20 := by omega
    have ge40 : ¬t < 40 := by omega
    have ge60 : ¬t < 60 := by omega
    simp only [mix, roundConstant, if_neg ge20, if_neg ge40, if_neg ge60]
    exact ⟨rfl, rfl⟩

/-- ACCUM at T = 80 is AccumBody (42_compression.md R128). -/
theorem exec_accum_of_eq_80 {s : State} (h : s.t.toNat = 80) : exec .accum s = .next (succeed (accumBody s)) :=
  exec_of_passes (if_neg (not_not_intro h))

/-- Settles O16: at T = 80 the command is AccumBody and the completion. -/
theorem accumResult : Obligations.AccumResult := by
  intro s h80
  rw [exec_accum_of_eq_80 h80, succeed_eq]
  rfl

/-- Settles O25: `compressBody_eq` gives every field, and `compressBody_h_reference` says what the new H is. -/
theorem compressResult : Obligations.CompressResult := by
  intro s j hblock
  refine ⟨_, _, compress_next hblock, expand_next hblock, ?_, compressBody_h_reference j s⟩
  rw [succeed_eq, compressBody_eq]
  rfl

/-! A body of the engine and a completion commute: the body neither reads nor writes STATUS. -/

theorem loadBody_succeed (s : State) : loadBody (succeed s) = succeed (loadBody s) := rfl

theorem accumBody_succeed (s : State) : accumBody (succeed s) = succeed (accumBody s) := rfl

theorem roundBody_succeed (s : State) : roundBody (succeed s) = succeed (roundBody s) := by
  by_cases h : s.t.toNat < 80
  · rw [roundBody_eq h, roundBody_eq (s := succeed s) h]
    rfl
  · rw [roundBody, roundBody, dif_neg h, dif_neg (show ¬(succeed s).t.toNat < 80 from h)]

theorem rounds_succeed (n : Nat) (s : State) : rounds n (succeed s) = succeed (rounds n s) := by
  induction n with
  | zero => rfl
  | succ n ih => rw [rounds, rounds, ih, roundBody_succeed]

theorem allRounds_succeed (s : State) : allRounds (succeed s) = succeed (allRounds s) := by
  rw [allRounds_eq, allRounds_eq, rounds_succeed]

/-- LOADWV, ROUND 80 times and ACCUM: their bodies, and one completion of all 82 commands. -/
theorem runCommands_loadwv_rounds_accum (s : State) :
    runCommands (.loadwv :: List.replicate 80 .round ++ [.accum]) s =
      succeed (accumBody (allRounds (loadBody s))) := by
  have ht : (rounds 80 (succeed (loadBody s))).t.toNat = 80 := (loadwv_rounds_result s (le_refl _)).1
  rw [runCommands_append, runCommands_loadwv_rounds s (le_refl _), runCommands_cons (exec_accum_of_eq_80 ht), runCommands,
    ← allRounds_eq, allRounds_succeed, accumBody_succeed, succeed_idem]

/-- Settles O26: the single commands run the bodies of COMPRESS, and the completions between them merge into one. -/
theorem compressEqualsSingleSteps : Obligations.CompressEqualsSingleSteps := by
  intro s j hblock
  simp only [List.cons_append, List.nil_append]
  rw [compress_next hblock, runCommands_cons (expand_next hblock), ← List.cons_append, runCommands_loadwv_rounds_accum,
    loadBody_succeed, allRounds_succeed, accumBody_succeed, succeed_idem, compressBody]

/-- Settles O27: `compressBody_eq` gives the four registers from the old H and the schedule, and the schedule is that of
the block's words. -/
theorem compressDependsOnlyOnHashAndBlock : Obligations.CompressDependsOnlyOnHashAndBlock := by
  intro s s' t t' j j' hblock hblock' hh hbytes h h'
  obtain rfl := Host.Outcome.next.inj ((compress_next hblock).symm.trans h)
  obtain rfl := Host.Outcome.next.inj ((compress_next hblock').symm.trans h')
  have hw : schedule j s = schedule j' s' := schedule_congr (readWord_eq_of_block_eq hbytes)
  rw [compressBody_eq, compressBody_eq, hw, hh]
  exact ⟨rfl, rfl, rfl, rfl⟩

end Sys2Proof.Machine
end

section
/-! INIT, NOP and DIGEST (43_digest.md): what DIGEST writes, then the digest, the single commands, a second run. -/

namespace Sys2Proof.Machine

/-- Settles O11: NOP makes no check and has no body, so the completion is all it does. -/
theorem nopResult : Obligations.NopResult := by
  intro s
  rw [exec_of_passes rfl, succeed_eq]
  rfl

/-- INIT makes no check (43_digest.md R151). -/
theorem init_next (s : State) : exec .init s = .next (succeed (initBody s)) := exec_of_passes rfl

/-- Settles O12: INIT makes no check, and its body is InitBody. -/
theorem initResult : Obligations.InitResult := by
  intro s
  rw [init_next, succeed_eq]
  rfl

/-! What DIGEST's body writes. -/

/-- Everything but H, A..E and W has its value in closed form (43_digest.md R152, end state). -/
theorem digestBody_eq (s : State) :
    digestBody s = { s with
      h := (digestBody s).h
      v := (digestBody s).v
      w := (digestBody s).w
      buf := (padBody s).buf
      t := Const.noBlock
      padlen := (padBody s).padlen
      cmpcnt := BitVec.ofNat 32 (padLength s.msglen.toNat / 64) } := by
  have ht : (digestBody s).t = Const.noBlock := digestBlocks_t _ _ rfl
  have hcmpcnt : (digestBody s).cmpcnt = BitVec.ofNat 32 (padLength s.msglen.toNat / 64) :=
    (digestBlocks_cmpcnt _ _).trans (BitVec.zero_add _)
  exact State.ext rfl rfl rfl ht (digestBlocks_msglen _ _) (digestBlocks_padlen _ _) hcmpcnt (digestBlocks_status _ _)
    (digestBlocks_pending _ _) (digestBlocks_buf _ _) (digestBlocks_capacity _ _) (digestBlocks_resets _ _)
    (digestBlocks_draws _ _) (digestBlocks_script _ _) (digestBlocks_reads _ _)

@[simp] theorem digestBody_msglen (s : State) : (digestBody s).msglen = s.msglen := by rw [digestBody_eq]
@[simp] theorem digestBody_status (s : State) : (digestBody s).status = s.status := by rw [digestBody_eq]
@[simp] theorem digestBody_resets (s : State) : (digestBody s).resets = s.resets := by rw [digestBody_eq]
@[simp] theorem digestBody_buf (s : State) : (digestBody s).buf = (padBody s).buf := by rw [digestBody_eq]
@[simp] theorem digestBody_padlen (s : State) : (digestBody s).padlen = (padBody s).padlen := by rw [digestBody_eq]
@[simp] theorem digestBody_cmpcnt (s : State) :
    (digestBody s).cmpcnt = BitVec.ofNat 32 (padLength s.msglen.toNat / 64) := by rw [digestBody_eq]

/-- Settles O29: PAD and DIGEST make the same check, and `digestBody_eq` gives every field. -/
theorem digestEndState : Obligations.DigestEndState := by
  rintro s p hp - hle
  obtain rfl : p = padLength s.msglen.toNat := hp
  have hcheck : padCheck s = none := padCheck_of_padLength_le hle
  refine ⟨succeed (digestBody s), succeed (padBody s), exec_of_passes hcheck, exec_of_passes hcheck, ?_⟩
  rw [succeed_eq, digestBody_eq]
  rfl

/-! The digest of the message. -/

/-- DIGEST's body leaves the digest in H: the blocks of its loop are those of the padded message. -/
theorem digestBody_h_reference (s : State) : (digestBody s).h = Reference.sha1 s.message := by
  have hlen := padLength_bounds s.msglen.toNat
  rw [digestBody, digestBlocks_h, Reference.sha1, padded_length, message_length]
  refine List.foldl_ext _ _ _ fun h j hj => ?_
  have hlt : j < padLength s.msglen.toNat / 64 := List.mem_range.1 hj
  have hblock : 64 * j + 64 ≤ padLength s.msglen.toNat := by omega
  exact congrArg (Reference.compress h) (padBody_block (initBody s) j hblock)

/-- Settles O28: PadCheck passes, and DIGEST's body leaves the digest. -/
theorem digestComputesSha1 : Obligations.DigestComputesSha1 := by
  intro s hfits
  refine ⟨succeed (digestBody s), digest_next hfits, ?_, digestBody_h_reference s⟩
  rw [succeed_status, digestBody_status]

/-! A body and a completion commute (as for the engine's bodies above), so a run of commands completes once. -/

theorem padBody_succeed (s : State) : padBody (succeed s) = succeed (padBody s) := rfl

theorem schedule_succeed (j : Nat) (s : State) : schedule j (succeed s) = schedule j s :=
  schedule_congr fun _ _ => congrArg (BitVec.ofNat 32) (memRead_congr fun _ _ => congrFun (readByte_succeed s) _)

theorem expandBody_succeed (j : Nat) (s : State) : expandBody j (succeed s) = succeed (expandBody j s) := by
  rw [expandBody, schedule_succeed]
  rfl

theorem compressBody_succeed (j : Nat) (s : State) : compressBody j (succeed s) = succeed (compressBody j s) := by
  rw [compressBody, expandBody_succeed, loadBody_succeed, allRounds_succeed, accumBody_succeed, compressBody]

/-- COMPRESS of blocks 0 .. n-1 after a completed command is DIGEST's loop and one completion. -/
theorem runCommands_compress_blocks {s : State} {n : Nat} (hn : 64 * n ≤ s.bufBytes) :
    runCommands ((List.range n).map fun j => Instr.compress j) (succeed s) = succeed (digestBlocks n s) := by
  induction n with
  | zero => rfl
  | succ n ih =>
    have hblock : 64 * n + 64 ≤ (succeed (digestBlocks n s)).bufBytes := by
      rw [succeed_bufBytes, digestBlocks_bufBytes]; omega
    rw [List.range_succ, List.map_append, runCommands_append, ih (by omega)]
    calc runCommands [.compress n] (succeed (digestBlocks n s))
      _ = succeed (compressBody n (succeed (digestBlocks n s))) := runCommands_cons (compress_next hblock)
      _ = succeed (digestBlocks (n + 1) s) := by rw [compressBody_succeed, succeed_idem, digestBlocks]

/-- Settles O30: INIT and PAD leave what DIGEST's loop starts from, with a completion that commutes with the loop. -/
theorem digestEqualsInitPadCompress : Obligations.DigestEqualsInitPadCompress := by
  rintro s p hp - hle
  obtain rfl : p = padLength s.msglen.toNat := hp
  have hcheck : padCheck s = none := padCheck_of_padLength_le hle
  have hdigest : exec .digest s = .next (succeed (digestBody s)) := exec_of_passes hcheck
  have hpad : exec .pad (succeed (initBody s)) = .next (succeed (padBody (succeed (initBody s)))) :=
    exec_of_passes hcheck
  have hblocks : 64 * (padLength s.msglen.toNat / 64) ≤ (padBody (initBody s)).bufBytes :=
    (Nat.mul_div_le _ _).trans hle
  rw [hdigest, runCommands_append, runCommands_cons (init_next s), runCommands_cons hpad, runCommands,
    padBody_succeed, succeed_idem, runCommands_compress_blocks hblocks]
  rfl

/-! A second DIGEST. -/

/-- H, A..E and W after DIGEST depend on MSGLEN and on the padded BUF alone. -/
theorem digestBody_congr {s s' : State} (hmsglen : s.msglen = s'.msglen) (hbuf : (padBody s).buf = (padBody s').buf)
    (hresets : s.resets = s'.resets) :
    (digestBody s).h = (digestBody s').h ∧ (digestBody s).v = (digestBody s').v ∧
      (digestBody s).w = (digestBody s').w := by
  have hlen := padLength_bounds s'.msglen.toNat
  rw [digestBody, digestBody, hmsglen]
  exact digestBlocks_congr (s := padBody (initBody s)) (s' := padBody (initBody s')) rfl hbuf hresets _ (by omega)

/-- DIGEST's body changes nothing after a successful DIGEST, on a BUF in canonical form (43_digest.md R152 (d)). -/
theorem digestBody_succeed_digestBody {s : State} (hwf : Memory.wf s.bufBytes s.buf = true)
    (hcheck : padCheck s = none) : digestBody (succeed (digestBody s)) = succeed (digestBody s) := by
  have hbuf : (padBody (succeed (digestBody s))).buf = (padBody s).buf := by
    simpa using padMemory_idem hwf (padLength_le_of_padCheck hcheck)
  have hpadlen : (padBody (succeed (digestBody s))).padlen = (padBody s).padlen := by simp
  obtain ⟨hh, hv, hw⟩ := digestBody_congr (s := succeed (digestBody s)) (by simp) hbuf (by simp)
  rw [digestBody_eq (succeed (digestBody s)), hh, hv, hw, hbuf, hpadlen, succeed_msglen, digestBody_msglen, succeed_eq,
    digestBody_eq s]

/-- Settles O31: PadCheck reads what no command writes, and DIGEST's body is idempotent. -/
theorem digestTwiceGivesSameState : Obligations.DigestTwiceGivesSameState := by
  intro s t hwf h
  have hcheck : padCheck t = padCheck s := by simp only [padCheck, exec_msglen h, exec_bufBytes h]
  exact exec_again h hcheck (digestBody_succeed_digestBody hwf)

end Sys2Proof.Machine
end

section
/-! CMPCNT counts the blocks since INIT (43_digest.md R153). -/

namespace Sys2Proof.Machine

/-- CMPCNT is PADLEN / 64 after DIGEST's body: P(L) fits BUF, so neither register wraps. -/
theorem digestBody_cmpcnt_toNat {s : State} (hcheck : padCheck s = none) :
    (digestBody s).cmpcnt.toNat = (digestBody s).padlen.toNat / 64 := by
  have hle := padLength_le_of_padCheck hcheck
  have hbytes := bufBytes_bounds s
  rw [digestBody_padlen, padBody_padlen_toNat hcheck, digestBody_cmpcnt, BitVec.toNat_ofNat]
  exact Nat.mod_eq_of_lt (by omega)

/-- Of the commands but INIT and DIGEST, COMPRESS and ACCUM count one block and no other writes CMPCNT. -/
theorem commandBody_cmpcnt {i : Instr} (hinit : i ≠ .init) (hdigest : i ≠ .digest) (s : State) :
    (commandBody i s).cmpcnt = s.cmpcnt + BitVec.ofNat 32 (if accumulates i then 1 else 0) := by
  cases i with
  | init => exact absurd rfl hinit
  | digest => exact absurd rfl hdigest
  | accum => rfl
  | compress j => rw [commandBody, compressBody_eq]; rfl
  | round => simp [commandBody, accumulates]
  | nop | pad | expand | loadwv => exact (BitVec.add_zero _).symm

/-- A command but INIT and DIGEST counts a block exactly when it is an accumulation and succeeds. -/
theorem exec_cmpcnt {i : Instr} {s t : State} (hinit : i ≠ .init) (hdigest : i ≠ .digest) (h : exec i s = .next t) :
    t.cmpcnt = s.cmpcnt + BitVec.ofNat 32 (if accumulates i && !t.status.err then 1 else 0) := by
  rcases exec_cases h with ⟨e, -, rfl⟩ | ⟨-, rfl⟩
  · simp [Status.afterError]
  · simpa [Status.afterSuccess] using commandBody_cmpcnt hinit hdigest s

/-- A run of commands but INIT and DIGEST adds its successful accumulations to CMPCNT. -/
theorem runCommands_cmpcnt {cs : List Instr} (hcs : ∀ i ∈ cs, i ≠ .init ∧ i ≠ .digest) (s : State) :
    (runCommands cs s).cmpcnt = s.cmpcnt + BitVec.ofNat 32 (successfulAccumulations cs s) := by
  induction cs generalizing s with
  | nil => exact (BitVec.add_zero _).symm
  | cons i is ih =>
    obtain ⟨⟨hinit, hdigest⟩, his⟩ := List.forall_mem_cons.1 hcs
    have hi := exec_eq i s
    rw [runCommands_cons hi, successfulAccumulations_cons hi, ih his, exec_cmpcnt hinit hdigest hi, BitVec.ofNat_add,
      BitVec.add_assoc]

/-- Settles O36: DIGEST leaves both counts in closed form, and INIT starts the count of a run at 0. -/
theorem blockCountFollowsCommands : Obligations.BlockCountFollowsCommands := by
  refine ⟨fun s t h herr => ?_, fun s cs hcs => ?_⟩
  · rcases exec_cases h with ⟨e, -, rfl⟩ | ⟨hcheck, rfl⟩
    · rw [raiseCmdError_status] at herr
      cases herr
    · rw [succeed_cmpcnt, succeed_padlen, commandBody]
      exact digestBody_cmpcnt_toNat hcheck
  · rw [runCommands_cons (init_next s), successfulAccumulations_cons (init_next s), runCommands_cmpcnt hcs,
      succeed_cmpcnt, initBody_cmpcnt, BitVec.toNat_add, BitVec.toNat_ofNat]
    simp [accumulates]

end Sys2Proof.Machine
end

section
/-! Command errors (60_exceptions.md R165 to R171): a failing check, or a word that is no command, leaves all but STATUS. -/

namespace Sys2Proof

/-- A command that takes no operand, with an operand, is no command (30_encoding.md R83, R84 (b)). -/
theorem decode_of_nonzeroArg {v : Word} (hopc : opcField v ∈ [0x00, 0x01, 0x02, 0x04, 0x05, 0x06, 0x08])
    (harg : argField v ≠ 0) : decode v = .error .nonzeroArg := by
  rw [decode]
  generalize opcField v = opc at hopc
  fin_cases hopc <;> exact if_neg harg

end Sys2Proof

namespace Sys2Proof.Machine

/-- A failing check reports its code and leaves all but STATUS (60_exceptions.md R171). -/
theorem exec_error {i : Instr} {s : State} {e : CmdError} (h : commandCheck i s = some e) :
    exec i s = .next { s with status := s.status.afterError e.code } := by
  rw [exec_of_fails h, raiseCmdError_eq]

/-- A step on a pending word that is no command reports ILLEGAL_CMD and leaves all but STATUS (60_exceptions.md R166). -/
theorem step_of_decode_error {s : State} {d : DecodeError} (hcore : s.coreIsNext) (hb : s.status.busy = true)
    (hd : decode s.pending = .error d) : step s = .next { s.afterTurn with status := s.status.afterError 1 } := by
  rw [step_core hcore, coreTurn_of_decode_error (s := s.afterTurn) hb hd, raiseCmdError_eq]
  rfl

/-- Settles O7: either kind of illegal word does not decode. -/
theorem illegalWordReportsIllegalCmd : Obligations.IllegalWordReportsIllegalCmd := by
  intro s hcore hb hword
  rw [← opcField_eq, ← argField_eq] at hword
  rcases hword with hreserved | ⟨hopc, harg⟩
  · exact step_of_decode_error hcore hb (decode_of_reserved hreserved)
  · exact step_of_decode_error hcore hb (decode_of_nonzeroArg hopc harg)

/-- Settles O33: a command that fails its check is its completion alone, and one that passes it clears ERR. -/
theorem commandErrorsArePrecise : Obligations.CommandErrorsArePrecise := by
  intro i s t h herr
  rcases exec_cases h with ⟨e, -, rfl⟩ | ⟨-, rfl⟩
  · rw [raiseCmdError_eq]; rfl
  · rw [succeed_status] at herr
    cases herr

/-- Settles O17: the bound on T decides both checks. -/
theorem sequenceErrors : Obligations.SequenceErrors :=
  fun _ => ⟨fun hround => exec_error (e := .sequence) (if_pos hround),
    fun haccum => exec_error (e := .sequence) (if_pos haccum)⟩

/-- Settles O20: both commands check that the block exists. -/
theorem blockRangeErrors : Obligations.BlockRangeErrors := by
  intro s j hout
  have hblock : ¬ blockExists s j := Nat.not_le_of_lt hout
  exact ⟨exec_error (e := .blockRange) (if_neg hblock), exec_error (e := .blockRange) (if_neg hblock)⟩

/-- The first check of PadCheck fails (40_padder.md R97). -/
theorem padCheck_tooLarge {s : State} (h : 2 ^ 61 ≤ s.msglen.toNat) : padCheck s = some .inputTooLarge := if_pos h

/-- The second check of PadCheck fails (40_padder.md R97). -/
theorem padCheck_noRoom {s : State} (h : s.msglen.toNat < 2 ^ 61) (hp : s.bufBytes < padLength s.msglen.toNat) :
    padCheck s = some .allocFailure := by
  rw [padCheck, if_neg (Nat.not_le_of_lt h), if_pos hp]

/-- Settles O22: PAD and DIGEST both make PadCheck. -/
theorem padCheckErrors : Obligations.PadCheckErrors := by
  intro s i hi
  have hcheck : commandCheck i s = padCheck s := by rcases hi with rfl | rfl <;> rfl
  exact ⟨fun hlarge => exec_error (hcheck.trans (padCheck_tooLarge hlarge)),
    fun hsmall hroom => exec_error (hcheck.trans (padCheck_noRoom hsmall hroom))⟩

end Sys2Proof.Machine
end

section
/-! What a host access, or a core turn while idle, cannot do (60_exceptions.md R173 to R176, R183). -/

namespace Sys2Proof.Machine

/-- Settles O8: the core's turn while BUSY = 0 answers the state it was given. -/
theorem idleCoreKeepsState : Obligations.IdleCoreKeepsState := by
  intro s hcore hb
  have hidle : ¬ s.afterTurn.status.busy = true := Bool.eq_false_iff.mp hb
  rw [step_core hcore, coreTurn, if_neg hidle]

/-- A read whose offset leads nowhere answers 0 and records its cause (60_exceptions.md R174). -/
theorem step_read_error {s : State} {a : Addr} {rest : List Turn} {e : HostError} (h : s.script = .read a :: rest)
    (hl : locate s.bufBytes a = .error e) :
    step s = .next { s.afterTurn with status := s.status.afterHostError e.cause, reads := (a, 0) :: s.reads } := by
  rw [step_read h, hostRead_of_error (s := s.afterTurn) hl, takeHostError_eq]
  rfl

/-- A write whose offset leads nowhere is dropped and records its cause (60_exceptions.md R174). -/
theorem step_write_error {s : State} {a : Addr} {x : Word} {rest : List Turn} {e : HostError}
    (h : s.script = .write a x :: rest) (hl : locate s.bufBytes a = .error e) :
    step s = .next { s.afterTurn with status := s.status.afterHostError e.cause } := by
  rw [step_write h, hostWrite_of_error (s := s.afterTurn) hl, takeHostError_eq]
  rfl

/-- Settles O45: a misaligned offset, and an aligned one in a gap of the map, leads nowhere. -/
theorem hostAccessErrors : Obligations.HostAccessErrors := by
  intro s a x rest cause hoff
  rcases hoff with ⟨hmis, rfl⟩ | ⟨halign, rfl, hgap⟩
  · have hl := locate_misaligned (n := s.bufBytes) hmis
    exact ⟨fun h => step_read_error h hl, fun h => step_write_error h hl⟩
  · have hl := locate_unmapped halign (mapped_gap hgap)
    exact ⟨fun h => step_read_error h hl, fun h => step_write_error h hl⟩

/-- A host read changes STATUS and the model's record of the host alone (20_memory.md R55). -/
theorem hostRead_frame (a : Addr) (s : State) :
    hostRead a s = { s with
      status := (hostRead a s).status, draws := (hostRead a s).draws, reads := (hostRead a s).reads } := by
  rcases hostRead_cases a s with ⟨e, -, hr⟩ | ⟨loc, -, -, -, hr⟩ | ⟨loc, -, -, hr⟩
  · rw [hr, takeHostError_eq]
  · rw [hr]
  · rw [hr]

/-- A host write while a command runs changes STATUS alone and keeps BUSY (20_memory.md R57, 10_state.md R32). -/
theorem hostWrite_frame_of_busy {s : State} (hb : s.status.busy = true) (a : Addr) (x : Word) :
    (hostWrite a x s).status.busy = true ∧ hostWrite a x s = { s with status := (hostWrite a x s).status } := by
  rcases hostWrite_cases a x s with ⟨e, -, hw⟩ | ⟨-, hw⟩ | ⟨loc, -, -, -, hw⟩ | ⟨loc, -, -, hidle, -⟩
  · rw [hw, takeHostError_eq]; exact ⟨hb, rfl⟩
  · rw [hw]; exact ⟨hb, rfl⟩
  · rw [hw, takeHostError_eq]; exact ⟨hb, rfl⟩
  · rw [hb] at hidle; cases hidle

/-- Settles O46: no read writes BUSY, and while BUSY = 1 a write that is not of STATUS is dropped. -/
theorem busyBlocksHostAccesses : Obligations.BusyBlocksHostAccesses := by
  intro s a x rest hb haccess
  rcases haccess with h | h
  · exact ⟨_, step_read h, (hostRead_keeps_command a s.afterTurn).2.trans hb, hostRead_frame a s.afterTurn⟩
  · obtain ⟨hbusy, hframe⟩ := hostWrite_frame_of_busy (s := s.afterTurn) hb a x
    refine ⟨_, step_write h, hbusy, ?_⟩
    rw [hframe]

end Sys2Proof.Machine
end

section
/-! Reset and hazards (70_reset_and_hazards.md): what a reset leaves, a write that meets a running command, and the end of
every command. -/

namespace Sys2Proof.Machine

theorem exec_script {i : Instr} {s t : State} (h : exec i s = .next t) : t.script = s.script := by
  rcases exec_cases h with ⟨e, -, rfl⟩ | ⟨-, rfl⟩
  · exact raiseCmdError_script e s
  · obtain ⟨-, -, -, -, -, -, hscript, -⟩ := commandBody_frame i s
    rw [succeed_script, hscript]

/-- The core's turn leaves MSGLEN, which is the host's alone (10_state.md R28), and the turns still scheduled. -/
theorem coreTurn_keeps_host {s t : State} (h : coreTurn s = .next t) :
    t.msglen = s.msglen ∧ t.script = s.script := by
  rcases coreTurn_cases s with ⟨-, hidle⟩ | ⟨-, -, hillegal⟩ | ⟨-, i, -, hexec⟩
  · cases hidle.symm.trans h; exact ⟨rfl, rfl⟩
  · cases hillegal.symm.trans h; exact ⟨rfl, rfl⟩
  · have he := hexec.symm.trans h
    exact ⟨exec_msglen he, exec_script he⟩

/-- A core step while BUSY = 1 ends the command and hands the rest of the schedule on. -/
theorem step_core_ends_command {s : State} (hcore : s.coreIsNext) (hb : s.status.busy = true) :
    ∃ code t, step s = .next t ∧ t.status = s.status.completed code ∧ t.msglen = s.msglen ∧
      t.script = s.script.tail := by
  obtain ⟨code, t, hturn, hstatus, -⟩ := coreTurn_completes (s := s.afterTurn) hb
  obtain ⟨hmsglen, hscript⟩ := coreTurn_keeps_host hturn
  exact ⟨code, t, (step_core hcore).trans hturn, hstatus, hmsglen, hscript⟩

theorem run_one {s t : State} (h : step s = .next t) : Sys2Proof.core.run 1 s = .next t := run_succ h 0

theorem run_two {s t u : State} (hst : step s = .next t) (htu : step t = .next u) :
    Sys2Proof.core.run 2 s = .next u :=
  (run_succ hst 1).trans (run_one htu)

/-- Settles O47: the core's completion makes the later write an idle one; the earlier write meets BUSY = 1. -/
theorem lateWriteHasTwoOutcomes : Obligations.LateWriteHasTwoOutcomes := by
  intro s x hb
  constructor
  · obtain ⟨code, t, hcore, hstatus, hmsglen, hscript⟩ :=
      step_core_ends_command (s := { s with script := [.core, .write 0x0010 x] }) rfl hb
    have hidle : t.status.busy = false := by rw [hstatus]; rfl
    have hwrite := step_write_idle (loc := .msglenLo) hscript rfl nofun hidle
    have hherr : t.status.herr = s.status.herr := by rw [hstatus]; rfl
    have hcause : t.status.herrCause = s.status.herrCause := by rw [hstatus]; rfl
    refine ⟨_, run_two hcore hwrite, ?_, hidle, hherr, hcause⟩
    rw [← hmsglen]; rfl
  · have hwrite := step_write_busy (s := { s with script := [.write 0x0010 x, .core] }) (loc := .msglenLo)
      rfl rfl nofun hb
    obtain ⟨code, t, hcore, hstatus, hmsglen, -⟩ :=
      step_core_ends_command (s := { s with status := s.status.afterHostError 3, script := [.core] }) rfl hb
    refine ⟨t, run_two hwrite hcore, hmsglen, ?_⟩
    rw [hstatus]
    exact ⟨rfl, rfl, rfl⟩

/-- A host access while BUSY = 1 hands the running command on with the rest of the schedule. -/
theorem step_access_keeps_busy {s : State} {a : Addr} {x : Word} {rest : List Turn} (hb : s.status.busy = true)
    (h : s.script = .read a :: rest ∨ s.script = .write a x :: rest) :
    ∃ t, step s = .next t ∧ t.status.busy = true ∧ t.script = rest := by
  obtain ⟨t, hstep, hbusy, hframe⟩ := busyBlocksHostAccesses s a x rest hb h
  refine ⟨t, hstep, hbusy, ?_⟩
  rw [hframe]
  rcases h with h | h <;> exact congrArg List.tail h

/-- A run of at most `n` steps reaches BUSY = 0: the conclusion of `Obligations.EveryCommandEnds`. -/
def State.EndsWithin (s : State) (n : Nat) : Prop :=
  ∃ k t, k ≤ n ∧ Sys2Proof.core.run k s = .next t ∧ t.status.busy = false

/-- A step that ends the command is a run that ends it. -/
theorem State.EndsWithin.of_step {s t : State} (h : step s = .next t) (hidle : t.status.busy = false) (n : Nat) :
    s.EndsWithin (n + 1) :=
  ⟨1, t, Nat.le_add_left 1 n, run_one h, hidle⟩

/-- A step may be put before a run that ends the command. -/
theorem State.EndsWithin.of_step_run {s t : State} {n : Nat} (h : step s = .next t) (ht : t.EndsWithin n) :
    s.EndsWithin (n + 1) := by
  obtain ⟨k, u, hk, hrun, hidle⟩ := ht
  exact ⟨k + 1, u, Nat.succ_le_succ hk, (run_succ h k).trans hrun, hidle⟩

/-- The core's turn ends the command. -/
theorem endsWithin_of_core {s : State} (hcore : s.coreIsNext) (hb : s.status.busy = true) (n : Nat) :
    s.EndsWithin (n + 1) := by
  obtain ⟨code, t, hstep, hstatus, -⟩ := step_core_ends_command hcore hb
  exact .of_step hstep (by rw [hstatus]; rfl) n

/-- The turns scheduled and one more suffice: the core's turn or a reset ends the command, and a host access leaves it
running with one turn less. -/
theorem endsWithin_script {s : State} {turns : List Turn} (hs : s.script = turns) (hb : s.status.busy = true) :
    s.EndsWithin (turns.length + 1) := by
  induction turns generalizing s with
  | nil => exact endsWithin_of_core (by rw [State.coreIsNext, hs]; rfl) hb 0
  | cons turn rest ih =>
    cases turn with
    | core => exact endsWithin_of_core (by rw [State.coreIsNext, hs]; rfl) hb _
    | reset => exact .of_step (step_reset hs) rfl _
    | read a =>
      obtain ⟨t, hstep, hbusy, hscript⟩ := step_access_keeps_busy (x := 0) hb (.inl hs)
      exact .of_step_run hstep (ih hscript hbusy)
    | write a x =>
      obtain ⟨t, hstep, hbusy, hscript⟩ := step_access_keeps_busy hb (.inr hs)
      exact .of_step_run hstep (ih hscript hbusy)

/-- Settles O52: `endsWithin_script` at the state's own schedule. -/
theorem everyCommandEnds : Obligations.EveryCommandEnds := fun _ hb => endsWithin_script rfl hb

/-- Settles O48: the fields of `resetStep`, whose BUF lists no byte. -/
theorem resetStepLeavesResetValues : Obligations.ResetStepLeavesResetValues := by
  intro s rest h
  exact ⟨resetStep s.afterTurn, step_reset h, rfl, rfl, fun _ hi => Vector.getElem_replicate hi, rfl, rfl, rfl, rfl, rfl,
    rfl, fun _ => rfl, rfl, congrArg List.tail h, rfl⟩

/-- Settles O49: the fields of `State.reset`; BUF_BYTES is in range for every value of the parameter. -/
theorem powerOnHoldsResetValues : Obligations.PowerOnHoldsResetValues :=
  ⟨rfl, rfl, fun _ hi => Vector.getElem_replicate hi, rfl, rfl, rfl, rfl, rfl, rfl, bufBytes_bounds State.reset⟩

/-- Settles O50: power-on is a reset, and the invariant does not speak of the number of resets. -/
theorem resetMeetsInvariant : Obligations.ResetMeetsInvariant := inv_resetStep State.reset

end Sys2Proof.Machine
end

section
/-! No step of the machine faults or is refused (93_implementation_defined.md section 1). -/

namespace Sys2Proof.Machine

/-- The core's turn answers a next state, whether it idles, meets an illegal word or runs a command. -/
theorem coreTurn_next (s : State) : ∃ t, coreTurn s = .next t := by
  rcases coreTurn_cases s with ⟨-, hidle⟩ | ⟨-, -, hillegal⟩ | ⟨-, i, -, hexec⟩
  · exact ⟨s, hidle⟩
  · exact ⟨illegalCommand s, hillegal⟩
  · exact ⟨_, hexec.trans (exec_eq i s)⟩

/-- Settles O9: each of the four kinds of turn answers a next state. -/
theorem everyStepAnswersNext : Obligations.EveryStepAnswersNext := by
  intro s
  rcases turn_cases s with hcore | ⟨a, rest, hread⟩ | ⟨a, x, rest, hwrite⟩ | ⟨rest, hreset⟩
  · obtain ⟨t, hturn⟩ := coreTurn_next s.afterTurn
    exact ⟨t, (step_core hcore).trans hturn⟩
  · exact ⟨hostRead a s.afterTurn, step_read hread⟩
  · exact ⟨hostWrite a x s.afterTurn, step_write hwrite⟩
  · exact ⟨resetStep s.afterTurn, step_reset hreset⟩

end Sys2Proof.Machine
end
